-- ==== Sys2Proof/Word.lean ====
section
/-!
DEFINITION. The widths of the machine: bytes, 16-bit channels and header fields, 32-bit registers
(00_scope.md R14, R16, R18).
-/
namespace Sys2Proof

/-- One byte of system memory, of a SAG stream or of a palette entry. -/
abbrev Byte := BitVec 8

/-- One colour channel of an RGBA64 pixel, or a 16-bit field of a command word (`uint16`, 00_scope.md R18). -/
abbrev Half := BitVec 16

/-- One register of the window, and one command word (00_scope.md R16, 30_encoding.md R110). -/
abbrev Word := BitVec 32

end Sys2Proof
end

