-- ==== Sys2Proof/Syntax.lean ====
section
/-!
DEFINITION. The commands of the block, one constructor per row of spec/opcode_table.json
(30_encoding.md R112).
-/
namespace Sys2Proof

/-- A command. The only operand is the immediate of `pal.extract` (30_encoding.md R113, R119); every other
operand is an implicit control register (R114). -/
inductive Instr
  /-- `nop`, opcode 0x00 (44_control.md R250). -/
  | nop
  /-- `hist.clear`, opcode 0x01 (40_palette_extractor.md R140). -/
  | histClear
  /-- `hist.accum`, opcode 0x02 (40_palette_extractor.md R145). -/
  | histAccum
  /-- `pal.extract #maxColors`, opcode 0x03 (40_palette_extractor.md R150). -/
  | palExtract (maxColors : Int)
  /-- `map.nearest`, opcode 0x04 (41_nearest_quantizer.md R170). -/
  | mapNearest
  /-- `map.quantize`, opcode 0x05 (41_nearest_quantizer.md R176). -/
  | mapQuantize
  /-- `sag.encode`, opcode 0x06 (42_sag_encoder.md R200). -/
  | sagEncode
  /-- `sag.decode`, opcode 0x07 (43_sag_decoder.md R230). -/
  | sagDecode
  /-- `soft.reset`, opcode 0x0F (44_control.md R252). -/
  | softReset
deriving DecidableEq, Repr

end Sys2Proof
end

