-- ==== Sys2Proof/WellFormed.lean ====
section
/-!
DEFINITION. Which commands an assembler accepts (30_encoding.md R119).
-/
namespace Sys2Proof

/-- `pal.extract #m` takes `m` in `-32768 .. 32767`, and no other command has an operand
(30_encoding.md R119). -/
def Instr.wellFormed : Instr → Bool
  | .palExtract maxColors => decide (-32768 ≤ maxColors) && decide (maxColors ≤ 32767)
  | .nop => true
  | .histClear => true
  | .histAccum => true
  | .mapNearest => true
  | .mapQuantize => true
  | .sagEncode => true
  | .sagDecode => true
  | .softReset => true

end Sys2Proof
end

