-- ==== Sys2Proof/Decode.lean ====
section
/-!
DEFINITION. Command words: the decoder of 30_encoding.md R117, total on every 32-bit word and rejecting by
name, and after it the encoder (R112, R113, R119).
-/
namespace Sys2Proof

/-- Why a word is illegal (30_encoding.md R115). The block reports all three alike, as `ILLEGAL_COMMAND`;
the names are the model's [log entry 17]. -/
inductive IllegalWord
  /-- Bits 15:8 are not 0. -/
  | reservedField (rsvd : Byte)
  /-- Bits 7:0 are none of the opcodes of R112. -/
  | reservedOpcode (opcode : Byte)
  /-- Bits 31:16 are not 0 on a command other than `pal.extract`. -/
  | immediateNotZero (imm16 : Half)
deriving DecidableEq, Repr

/-- `OPCODE`, bits 7:0 of a command word (30_encoding.md R110). -/
def opcodeField (w : Word) : Byte := w.extractLsb' 0 8

/-- `RSVD`, bits 15:8 of a command word (30_encoding.md R110). -/
def reservedField (w : Word) : Byte := w.extractLsb' 8 8

/-- `IMM16`, bits 31:16 of a command word (30_encoding.md R110). -/
def immField (w : Word) : Half := w.extractLsb' 16 16

/-- `{IMM16, RSVD, OPCODE}` as one word (30_encoding.md R110). -/
def commandWord (imm16 : Half) (rsvd opcode : Byte) : Word := imm16 ++ rsvd ++ opcode

/-- `maxColors = sext(IMM16)` (30_encoding.md R113). -/
def maxColorsOf (imm16 : Half) : Int := imm16.toInt

/-- `IMM16 = m mod 65536` (30_encoding.md R119). -/
def immOf (maxColors : Int) : Half := BitVec.ofInt 16 maxColors

/-- The rows of the opcode map that have no immediate (30_encoding.md R112, R117). -/
def plainCommand (opcode : Byte) : Option Instr :=
  match opcode.toNat with
  | 0x00 => some .nop
  | 0x01 => some .histClear
  | 0x02 => some .histAccum
  | 0x04 => some .mapNearest
  | 0x05 => some .mapQuantize
  | 0x06 => some .sagEncode
  | 0x07 => some .sagDecode
  | 0x0F => some .softReset
  | _ => none

/-- The decoder (30_encoding.md R117): for every word exactly one row of R112, or illegal. -/
def decode (w : Word) : Except IllegalWord Instr :=
  if reservedField w ≠ 0 then .error (.reservedField (reservedField w))
  else if opcodeField w = 0x03 then .ok (.palExtract (maxColorsOf (immField w)))
  else
    match plainCommand (opcodeField w) with
    | none => .error (.reservedOpcode (opcodeField w))
    | some i => if immField w = 0 then .ok i else .error (.immediateNotZero (immField w))

/-- The encoder (30_encoding.md R112, R119): the word of a command. -/
def encode : Instr → Word
  | .nop => commandWord 0 0 0x00
  | .histClear => commandWord 0 0 0x01
  | .histAccum => commandWord 0 0 0x02
  | .palExtract maxColors => commandWord (immOf maxColors) 0 0x03
  | .mapNearest => commandWord 0 0 0x04
  | .mapQuantize => commandWord 0 0 0x05
  | .sagEncode => commandWord 0 0 0x06
  | .sagDecode => commandWord 0 0 0x07
  | .softReset => commandWord 0 0 0x0F

/-- The assembler (30_encoding.md R119): it refuses an immediate outside `-32768 .. 32767`. -/
def assemble (i : Instr) : Option Word := if i.wellFormed then some (encode i) else none

/-- One row of the opcode map (30_encoding.md R112): a word matches it when `w &&& mask = pattern`. -/
structure OpcodeRow where
  mnemonic : String
  pattern : Word
  mask : Word
deriving DecidableEq, Repr

/-- A word matches a row (30_encoding.md R112). -/
def rowMatches (row : OpcodeRow) (w : Word) : Bool := (w &&& row.mask) == row.pattern

/-- The opcode map, the `match` and `mask` columns of 30_encoding.md R112. -/
def opcodeMap : List OpcodeRow :=
  [⟨"nop", 0x00000000#32, 0xFFFFFFFF#32⟩,
   ⟨"hist.clear", 0x00000001#32, 0xFFFFFFFF#32⟩,
   ⟨"hist.accum", 0x00000002#32, 0xFFFFFFFF#32⟩,
   ⟨"pal.extract", 0x00000003#32, 0x0000FFFF#32⟩,
   ⟨"map.nearest", 0x00000004#32, 0xFFFFFFFF#32⟩,
   ⟨"map.quantize", 0x00000005#32, 0xFFFFFFFF#32⟩,
   ⟨"sag.encode", 0x00000006#32, 0xFFFFFFFF#32⟩,
   ⟨"sag.decode", 0x00000007#32, 0xFFFFFFFF#32⟩,
   ⟨"soft.reset", 0x0000000F#32, 0xFFFFFFFF#32⟩]

/-- The name of a command in the opcode map (30_encoding.md R112). -/
def mnemonic : Instr → String
  | .nop => "nop"
  | .histClear => "hist.clear"
  | .histAccum => "hist.accum"
  | .palExtract _ => "pal.extract"
  | .mapNearest => "map.nearest"
  | .mapQuantize => "map.quantize"
  | .sagEncode => "sag.encode"
  | .sagDecode => "sag.decode"
  | .softReset => "soft.reset"

/-- The word whose low `nbits` bits are those of `w` and whose other bits are 0: a command is one 32-bit
word (30_encoding.md R111), numbered as the table numbers it. -/
def tableWord (nbits w : Nat) : Word := BitVec.ofNat 32 (w % 2 ^ nbits)

/-- The command the decoder reads from an instruction whose bits are `w`. -/
def decodeTableWord (nbits w : Nat) : Option Instr :=
  match decode (tableWord nbits w) with
  | .ok i => some i
  | .error _ => none

end Sys2Proof
end

