-- ==== Sys2Proof/Config.lean ====
section
/-!
DEFINITION. What an implementation or a platform fixes: the constants of 00_scope.md R10, R13, R14, R16,
the parameters of R11, R12, R15, 20_memory.md R81 and 60_exceptions.md R271, and the free bytes that
70_reset_and_hazards.md leaves open.
-/
namespace Sys2Proof

namespace Config

/-- `PALETTE_SIZE` (00_scope.md R10). -/
abbrev paletteSize : Nat := 256

/-- `HEADER_LEN` (00_scope.md R10). -/
abbrev headerLen : Nat := 780

/-- `BLOCK_W`, the pixel columns of one mask block (00_scope.md R10). -/
abbrev blockW : Nat := 8

/-- `FIELD_MAX`, the maximum of a 16-bit header field (00_scope.md R10). -/
abbrev fieldMax : Nat := 65535

/-- The greatest histogram count, `2^HIST_COUNT_BITS - 1` with `HIST_COUNT_BITS = 48` (00_scope.md R13). -/
abbrev countMax : Nat := 281474976710655

/-- The size of system memory, `2^ADDR_WIDTH` bytes (00_scope.md R14). -/
abbrev addrSpace : Nat := 4294967296

/-- The length of the register window in bytes (00_scope.md R16). -/
abbrev windowLen : Nat := 0x800

/-- The value of the `ID` register (10_state.md R33). -/
abbrev idWord : Word := 0x53414701#32

/-- FREE VALUE (log entry 6): the n-th byte drawn for the destination region of a command that a
hardware reset abandons (70_reset_and_hazards.md R292). Nothing constrains it. -/
opaque resetByte : Nat → Byte

/-- FREE VALUE (log entry 5): the n-th byte returned to a host read that breaks hazard rule 2
(70_reset_and_hazards.md R301). Nothing constrains it. -/
opaque hazardByte : Nat → Byte

/-- FREE VALUE (log entry 8): what a header byte at an address that does not exist counts as when
70_reset_and_hazards.md R300 names the regions of a pending `DECODE`. Nothing constrains it. -/
opaque absentByte : Nat → Byte

end Config

/-- The access kinds of `MEM_ADMITS` (00_scope.md R15). -/
inductive AccessKind
  | read
  | write
deriving DecidableEq, Repr

/-- A run of addresses `base .. base + len - 1` that the platform backs for reading, for writing or for
both. A list of windows spells the platform's `MEM_ADMITS` (00_scope.md R15) as plain data [log entry 11]. -/
structure Window where
  base : Nat
  len : Nat
  readable : Bool
  writable : Bool
deriving DecidableEq, Repr

/-- The parameters of the spec (10_state.md R67): they do not change during a run. -/
structure Platform where
  /-- `DELAY_UNIT_MS`, at least 1 (00_scope.md R11). -/
  delayUnitMs : Nat
  /-- `HIST_CAPACITY`, `1 .. 2^32 - 1` (00_scope.md R12). -/
  histCapacity : Nat
  /-- `MEM_ADMITS` (00_scope.md R15). -/
  windows : List Window
  /-- `REG_BASE` (20_memory.md R81). -/
  regBase : Nat
  /-- `IRQ_ROUTE` (60_exceptions.md R271): the host's name for the line `IRQ` is wired to. -/
  irqRoute : Nat
deriving DecidableEq, Repr

/-- DESIGN CHOICE (log entry 1): the parameters of the machine `State.reset`. The unit of 10 ms is this
hardware's (00_scope.md R11, PRESUMED from general knowledge as the spec says there); the others are OPEN in
the spec. No statement rests on them. -/
def Platform.reference : Platform where
  delayUnitMs := 10
  histCapacity := 4294967295
  windows := [⟨0, Config.addrSpace, true, true⟩]
  regBase := 0
  irqRoute := 0

end Sys2Proof
end

