-- ==== Sys2Proof/Machine/State.lean ====
section
/-!
DEFINITION. The state of the block (10_state.md R66), the system memory it shares with the host, the
model's own fields, why a step can stop, and the state after reset (70_reset_and_hazards.md R290).
-/
namespace Sys2Proof.Machine

/-- A colour: four 16-bit channels, equal when all four are equal (00_scope.md R22). -/
structure Colour where
  r : Half
  g : Half
  b : Half
  a : Half
deriving DecidableEq, Repr

/-- An RGB8 entry of the palette RAM (00_scope.md R22, 10_state.md R64). -/
structure Rgb8 where
  r : Byte
  g : Byte
  b : Byte
deriving DecidableEq, Repr

/-- `(0, 0, 0)`. -/
abbrev Rgb8.black : Rgb8 := ⟨0, 0, 0⟩

/-- One key of the histogram with its count. -/
structure HistEntry where
  colour : Colour
  count : Nat
deriving DecidableEq, Repr

/-- The histogram `H`, a finite map from colours to counts (10_state.md R60): the entries in ascending key
order, so that equal maps are equal lists. -/
abbrev Histogram := List HistEntry

/-- System memory: the bytes that differ from `Memory.unlisted`, addresses strictly rising. -/
abbrev Memory := List Host.Cell

/-- DESIGN CHOICE (log entry 2): what an address that is not listed reads as. -/
abbrev Memory.unlisted : Byte := 0

/-- The error codes (60_exceptions.md R260); no other value is ever reported. -/
inductive ErrorCode
  /-- 0x00 `NONE`: the last command succeeded, or none has run. -/
  | noError
  /-- 0x01 `ILLEGAL_COMMAND`: the word is no command. -/
  | illegalCommand
  /-- 0x02 `ADDR_RANGE`: a region is out of range. -/
  | addrRange
  /-- 0x03 `BUS_ERROR`: a region is not admitted by the platform. -/
  | busError
  /-- 0x04 `OVERLAP`: source and destination overlap. -/
  | overlap
  /-- 0x10 `FORMAT_TRUNC_HEADER`: fewer than 780 bytes of stream. -/
  | formatTruncHeader
  /-- 0x11 `FORMAT_SIGNATURE`: the stream does not start with SAG. -/
  | formatSignature
  /-- 0x12 `FORMAT_TRUNC_FRAME`: the stream is shorter than its header implies. -/
  | formatTruncFrame
  /-- 0x20 `BOUNDS_DIM`: a dimension or the frame count is out of range. -/
  | boundsDim
  /-- 0x21 `BOUNDS_PALETTE`: more than 256 palette entries. -/
  | boundsPalette
  /-- 0x22 `BOUNDS_DELAY`: the delay does not fit 16 bits. -/
  | boundsDelay
  /-- 0x30 `EMPTY_PALETTE`: no palette entry in use. -/
  | emptyPalette
  /-- 0x31 `HIST_FULL`: more than `HIST_CAPACITY` distinct colours. -/
  | histFull
  /-- 0x32 `HIST_OVERFLOW`: a count above `2^48 - 1`. -/
  | histOverflow
deriving DecidableEq, Repr

/-- The fields of `STATUS` (10_state.md R35). -/
structure Status where
  busy : Bool
  done : Bool
  error : Bool
  overrun : Bool
  errCode : ErrorCode
  lastOp : Byte
deriving DecidableEq, Repr

/-- Every field 0 (10_state.md R35). -/
abbrev Status.reset : Status := ⟨false, false, false, false, .noError, 0⟩

/-- The read-write operand registers (10_state.md R38 to R48). -/
structure OperandRegs where
  srcAddr : Word
  srcLen : Word
  dstAddr : Word
  pixCount : Word
  width : Word
  height : Word
  frameCount : Word
  delay : Word
  palCount : Word
  queryRG : Word
  queryBA : Word
deriving DecidableEq, Repr

/-- All 0 (70_reset_and_hazards.md R290). -/
abbrev OperandRegs.reset : OperandRegs := ⟨0, 0, 0, 0, 0, 0, 0, 0, 0, 0, 0⟩

/-- The read-only result registers that hold state (10_state.md R49, R50, R52 to R54). -/
structure ResultRegs where
  resultIndex : Word
  resultDist : Word
  frameDelayMs : Word
  hdrVersion : Word
  outLen : Word
deriving DecidableEq, Repr

/-- All 0 (70_reset_and_hazards.md R290). -/
abbrev ResultRegs.reset : ResultRegs := ⟨0, 0, 0, 0, 0⟩

/-- The palette RAM (10_state.md R64). -/
abbrev PaletteRam := Vector Rgb8 256

/-- One access of the host, or its polling loop (30_encoding.md R118, R120) [log entry 4]. -/
inductive HostStmt
  /-- `wr`: write `value` to the register window, `width` bytes at `offset`. -/
  | wr (offset width : Nat) (value : Word)
  /-- `rd`: read `width` bytes of the register window at `offset`. -/
  | rd (offset width : Nat)
  /-- One byte of `mb`. -/
  | storeByte (addr : Nat) (value : Byte)
  /-- One byte of `mr`. -/
  | loadByte (addr : Nat)
  /-- `wait`: `rd STATUS`, repeated until `BUSY` reads 0. -/
  | wait
deriving DecidableEq, Repr

/-- A value a host read returned (the model's record of it, log entry 13). -/
inductive HostRead
  | reg (offset : Nat) (value : Word)
  | mem (addr : Nat) (value : Byte)
deriving DecidableEq, Repr

/-- Which agent moves (20_memory.md R95, 60_exceptions.md R263, 70_reset_and_hazards.md R291)
[log entry 3]. -/
inductive Turn
  /-- The host runs its next statement. -/
  | host
  /-- The command engine completes the pending command, if there is one. -/
  | engine
  /-- The hardware reset input is asserted. -/
  | reset
deriving DecidableEq, Repr

/-- Why a step faults. No command of the block raises one: an error of a command is a next state
(60_exceptions.md R265). -/
inductive Fault
  /-- A host memory access at an address that does not exist, `2^32` or above (20_memory.md R80). Raised by
  the host statements `storeByte` and `loadByte`. Safe: the model stops [log entry 9]. -/
  | noSuchAddress (addr : Nat)
deriving DecidableEq, Repr

/-- Why a step is refused. -/
inductive Refusal
  /-- An instruction without a meaning. Raised by no arm of `exec`. Safe. -/
  | notModelled (mnemonic : String)
  /-- A register access that is not 32-bit at a 4-aligned offset inside the window (10_state.md R57). Raised
  by the host statements `wr` and `rd`. Safe: the host program is outside the spec. -/
  | registerAccess (offset width : Nat)
deriving DecidableEq, Repr

/-- The machine: the block's state (10_state.md R66), the memory it shares with the host, the flag
`HAZARD`, and the model's own fields. -/
structure State where
  /-- `STATUS` (10_state.md R35). -/
  status : Status
  /-- `INT_EN[2:0]` (10_state.md R37). -/
  intEn : BitVec 3
  /-- The operand registers (10_state.md R38 to R48). -/
  operands : OperandRegs
  /-- The result registers (10_state.md R49 to R54). -/
  results : ResultRegs
  /-- `PAL[0..255]` (10_state.md R64). -/
  palette : PaletteRam
  /-- `H` (10_state.md R60). -/
  hist : Histogram
  /-- `LATCH` (10_state.md R62). -/
  latch : Word
  /-- `Mem` (20_memory.md R80). -/
  mem : Memory
  /-- `HAZARD` (10_state.md R63). -/
  hazard : Bool
  /-- The parameters (10_state.md R67) [log entry 1]. -/
  platform : Platform
  /-- The host program still to run [log entry 10]. -/
  script : List HostStmt
  /-- The schedule [log entry 3]. -/
  turns : List Turn
  /-- What host reads returned, newest first [log entry 13]. -/
  seen : List HostRead
  /-- How many free bytes have been drawn [log entry 6]. -/
  draws : Nat
deriving DecidableEq, Repr

/-- The machine right after reset (70_reset_and_hazards.md R290), on the platform `p`: the block's state as
R290 says; memory, host and schedule empty, and `HAZARD` false (10_state.md R63). -/
def State.resetOn (p : Platform) : State where
  status := Status.reset
  intEn := 0
  operands := OperandRegs.reset
  results := ResultRegs.reset
  palette := Vector.replicate 256 Rgb8.black
  hist := []
  latch := 0
  mem := []
  hazard := false
  platform := p
  script := []
  turns := []
  seen := []
  draws := 0

/-- The machine right after reset (70_reset_and_hazards.md R290), on `Platform.reference`
[log entry 1]. -/
def State.reset : State := State.resetOn Platform.reference

end Sys2Proof.Machine
end

