-- ==== Sys2Proof/Machine/Ops.lean ====
section
/-!
DEFINITION. The named operations: bytes of memory and blocks of them (00_scope.md R20), regions and their
checks (20_memory.md R88 to R90), the palette RAM, and the lifecycle of a command (60_exceptions.md R262 to
R266), which is the block's whole exception mechanism (R268).
-/
namespace Sys2Proof.Machine

/-! ### Bytes of system memory -/

/-- One byte of memory. -/
def Memory.read : Memory → Nat → Byte
  | [], _ => Memory.unlisted
  | (k, b) :: m, a => if k = a then b else Memory.read m a

/-- `MemRead(addr, n)`: the bytes at `addr .. addr+n-1`, first byte first (00_scope.md R20). -/
def Memory.readBytes (m : Memory) (addr n : Nat) : List Byte :=
  (List.range n).map fun j => m.read (addr + j)

/-- The entries that hold the bytes `bs` from address `addr` on, in canonical form. -/
def Memory.cellsFrom : Nat → List Byte → Memory
  | _, [] => []
  | addr, b :: bs =>
    if b = Memory.unlisted then Memory.cellsFrom (addr + 1) bs
    else (addr, b) :: Memory.cellsFrom (addr + 1) bs

/-- `MemWrite(addr, |bs|, bs)` (00_scope.md R20), in canonical form. -/
def Memory.writeBytes (m : Memory) (addr : Nat) (bs : List Byte) : Memory :=
  m.filter (fun c => decide (c.1 < addr)) ++
    (Memory.cellsFrom addr bs ++ m.filter (fun c => decide (addr + bs.length ≤ c.1)))

/-- Write one byte. -/
def Memory.write (m : Memory) (addr : Nat) (b : Byte) : Memory := m.writeBytes addr [b]

/-- The canonical form: addresses strictly rising and below `2^32` (20_memory.md R80), no entry equal to what
an unlisted address reads as. -/
abbrev Memory.wf (m : Memory) : Prop :=
  List.Pairwise (fun c d : Host.Cell => c.1 < d.1) m ∧
    ∀ c ∈ m, c.1 < Config.addrSpace ∧ c.2 ≠ Memory.unlisted

/-- The big-endian 16-bit value of two bytes (00_scope.md R20, `be16`). -/
def be16 (hi lo : Byte) : Nat := hi.toNat * 256 + lo.toNat

/-- The big-endian 16-bit value at an address (20_memory.md R83). -/
def Memory.readBe16 (m : Memory) (addr : Nat) : Nat := be16 (m.read addr) (m.read (addr + 1))

/-- `bytes_be16(v)` (00_scope.md R20). -/
def bytesBe16 (v : Nat) : List Byte := [BitVec.ofNat 8 (v / 256), BitVec.ofNat 8 (v % 256)]

/-! ### Regions -/

/-- A pair `(addr, len)` naming the bytes `addr .. addr+len-1` (00_scope.md R28). -/
structure Region where
  addr : Nat
  len : Nat
deriving DecidableEq, Repr

/-- The region names the address. -/
def Region.contains (r : Region) (a : Nat) : Bool := decide (r.addr ≤ a) && decide (a < r.addr + r.len)

/-- `in_range(a, len)` (20_memory.md R88). -/
def Region.inRange (r : Region) : Bool :=
  decide (r.len ≤ 4294967295) && decide (r.addr + r.len ≤ Config.addrSpace)

/-- The window backs the address for this kind of access. -/
def windowAdmits (w : Window) (a : Nat) (k : AccessKind) : Bool :=
  decide (w.base ≤ a) && decide (a < w.base + w.len) &&
    (match k with
      | .read => w.readable
      | .write => w.writable)

/-- `MEM_ADMITS(a, k)` (00_scope.md R15). -/
def memAdmits (p : Platform) (a : Nat) (k : AccessKind) : Bool :=
  p.windows.any fun w => windowAdmits w a k

/-- The region is admitted for kind `k`, byte by byte (20_memory.md R89). -/
def Region.admitted (p : Platform) (r : Region) (k : AccessKind) : Bool :=
  (List.range r.len).all fun j => memAdmits p (r.addr + j) k

/-- Two regions overlap (20_memory.md R90). -/
def Region.overlaps (r q : Region) : Bool :=
  decide (0 < r.len) && decide (0 < q.len) && decide (r.addr < q.addr + q.len) &&
    decide (q.addr < r.addr + r.len)

/-! ### Palette RAM -/

/-- Entry `i` of a palette RAM; `(0, 0, 0)` past its end, which no rule reads. -/
def PaletteRam.entry (pal : PaletteRam) (i : Nat) : Rgb8 := (pal[i]?).getD Rgb8.black

/-- The palette RAM whose entry `i` is `f i`. -/
def PaletteRam.tabulate (f : Nat → Rgb8) : PaletteRam := Vector.ofFn fun i : Fin 256 => f i.val

/-- `PAL[i] <- e` (10_state.md R55); nothing past the end. -/
def PaletteRam.store (pal : PaletteRam) (i : Nat) (e : Rgb8) : PaletteRam := pal.setIfInBounds i e

/-! ### The lifecycle of a command -/

/-- Issue (60_exceptions.md R262): the word is latched, `BUSY` is set, `DONE`, `ERROR` and `ERR_CODE` are
cleared, `LAST_OP` shows bits 7:0 of the word, and `OVERRUN` stays. -/
def issue (w : Word) (s : State) : State :=
  { s with
    latch := w
    status := { s.status with
      busy := true, done := false, error := false, errCode := .noError, lastOp := opcodeField w } }

/-- Successful completion (60_exceptions.md R264), after the command's own writes: `BUSY <- 0`,
`DONE <- 1`, with `ERROR = 0` and `ERR_CODE = 0x00` [log entry 16]. -/
def succeed (s : State) : State :=
  { s with
    status := { s.status with busy := false, done := true, error := false, errCode := .noError } }

/-- Failed completion (60_exceptions.md R265, R266), the block's only form of exception entry (R268): only
`STATUS` changes. -/
def raiseError (code : ErrorCode) (s : State) : State :=
  { s with status := { s.status with busy := false, done := true, error := true, errCode := code } }

/-- A check: the condition under which it fails, asked only when its turn comes, and the code it raises
(00_scope.md R24). -/
abbrev Check := (Unit → Bool) × ErrorCode

/-- The first failing check of a list of checks, in order (60_exceptions.md R269). -/
def firstError : List Check → Option ErrorCode
  | [] => none
  | (fails, code) :: rest => if fails () then some code else firstError rest

/-- Check, then commit (00_scope.md R25): the first failing check is raised and nothing else is written;
when none fails, all of the command's writes are applied and the command succeeds. -/
def conclude (checks : List Check) (commit : State → State) (s : State) :
    Host.Outcome State Fault Refusal :=
  match firstError checks with
  | some code => .next (raiseError code s)
  | none => .next (succeed (commit s))

/-- Completion of a word that is no command (60_exceptions.md R261, 30_encoding.md R115). -/
def completeIllegal (s : State) : Host.Outcome State Fault Refusal :=
  .next (raiseError .illegalCommand s)

/-- What completion decodes (60_exceptions.md R263): the latched word. -/
def pendingCommand (s : State) : Except IllegalWord Instr := decode s.latch

/-- The reset state of every register, the palette RAM, the histogram and the latch
(70_reset_and_hazards.md R290). System memory, the parameters and `HAZARD` are kept (R293, 10_state.md R63),
and so are the host's fields. -/
def resetBlock (s : State) : State :=
  { s with
    status := Status.reset
    intEn := 0
    operands := OperandRegs.reset
    results := ResultRegs.reset
    palette := Vector.replicate 256 Rgb8.black
    hist := []
    latch := 0 }

end Sys2Proof.Machine
end

