-- ==== Sys2Proof/Machine/Control.lean ====
section
/-!
DEFINITION. The control commands `nop` and `soft.reset` (44_control.md).
-/
namespace Sys2Proof.Machine

/-- `nop` (44_control.md R250): `STATUS` only. -/
def execNop (s : State) : Host.Outcome State Fault Refusal := conclude [] (fun s => s) s

/-- The state after `SOFT_RESET` (44_control.md R252): the reset state, then `DONE = 1` and
`LAST_OP = 0x0F`. -/
def softResetState (s : State) : State :=
  { resetBlock s with status := { Status.reset with done := true, lastOp := 0x0F } }

/-- `soft.reset` (44_control.md R252). -/
def execSoftReset (s : State) : Host.Outcome State Fault Refusal := .next (softResetState s)

end Sys2Proof.Machine
end

