-- ==== Sys2Proof/Machine/Operands.lean ====
section
/-!
DEFINITION. Operands: the implicit control registers as numbers (30_encoding.md R114), the query colour,
RGBA64 pixels (20_memory.md R84), indexed frames (R85), colour order and projection (00_scope.md R22), the
regions the commands name, and `sag_len` (42_sag_encoder.md R196).
-/
namespace Sys2Proof.Machine

/-! ### Colours -/

/-- The key order: lexicographic on `(R, G, B, A)`, ascending (00_scope.md R22). -/
def Colour.before (c d : Colour) : Bool :=
  decide (c.r.toNat < d.r.toNat) ||
  (c.r == d.r && (decide (c.g.toNat < d.g.toNat) ||
  (c.g == d.g && (decide (c.b.toNat < d.b.toNat) ||
  (c.b == d.b && decide (c.a.toNat < d.a.toNat))))))

/-- The top 8 bits of a channel, `c >> 8` (00_scope.md R22). -/
def topByte (c : Half) : Byte := c.extractLsb' 8 8

/-- `proj`: the top 8 bits of R, G and B; alpha is dropped (00_scope.md R22). -/
def Colour.proj (c : Colour) : Rgb8 := ⟨topByte c.r, topByte c.g, topByte c.b⟩

/-- `(x - y)^2` on integers. -/
def squareDiff (x y : Byte) : Nat :=
  let d : Int := (x.toNat : Int) - (y.toNat : Int)
  (d * d).toNat

/-- The squared Euclidean distance (00_scope.md R23). -/
def dist (p q : Rgb8) : Nat := squareDiff p.r q.r + squareDiff p.g q.g + squareDiff p.b q.b

/-! ### Register operands -/

/-- The query colour of `NEAREST` (10_state.md R47, R48, 41_nearest_quantizer.md R170). -/
def queryColour (s : State) : Colour where
  r := s.operands.queryRG.extractLsb' 16 16
  g := s.operands.queryRG.extractLsb' 0 16
  b := s.operands.queryBA.extractLsb' 16 16
  a := s.operands.queryBA.extractLsb' 0 16

/-- `reg[PAL_COUNT]` as a number. -/
def palCountNat (s : State) : Nat := s.operands.palCount.toNat

/-- `reg[PIX_COUNT]` as a number. -/
def pixCountNat (s : State) : Nat := s.operands.pixCount.toNat

/-! ### Pixels and frames in memory -/

/-- One channel of a pixel: a big-endian `uint16` (20_memory.md R84). -/
def channelAt (m : Memory) (a : Nat) : Half := m.read a ++ m.read (a + 1)

/-- `pixel(a)` (20_memory.md R84). -/
def pixelAt (m : Memory) (a : Nat) : Colour where
  r := channelAt m a
  g := channelAt m (a + 2)
  b := channelAt m (a + 4)
  a := channelAt m (a + 6)

/-- The pixels `0 .. n-1` of an array at `base` (20_memory.md R84). -/
def pixelArray (m : Memory) (base n : Nat) : List Colour :=
  (List.range n).map fun k => pixelAt m (base + 8 * k)

/-- `frame_addr(base, f, x, y)` for frames of `w × h` (20_memory.md R85). -/
def frameAddr (base w h f x y : Nat) : Nat := base + f * w * h + y * w + x

/-- `ceil8(w)`, the mask blocks of a row (00_scope.md R17). -/
def ceil8 (w : Nat) : Nat := (w + 7) / 8

/-- `RS`, the stream bytes of a row (42_sag_encoder.md R193). -/
def rowLen (w : Nat) : Nat := ceil8 w + w

/-- `FS`, the stream bytes of a frame (42_sag_encoder.md R193). -/
def frameLen (w h : Nat) : Nat := h * rowLen w

/-- `sag_len(W, H, F)` (42_sag_encoder.md R196). -/
def sagLen (w h f : Nat) : Nat := Config.headerLen + f * h * rowLen w

/-- `bw`, the pixels of block `k` of a row (42_sag_encoder.md R193). -/
def blockWidth (w k : Nat) : Nat := min Config.blockW (w - Config.blockW * k)

/-- `off_mask(f, y, k)`: the stream offset of a block (42_sag_encoder.md R193). -/
def maskOffset (w h f y k : Nat) : Nat :=
  Config.headerLen + f * frameLen w h + y * rowLen w + 9 * k

/-- `off_index(f, x, y)`: the stream offset of a pixel's index (42_sag_encoder.md R193). -/
def indexOffset (w h f x y : Nat) : Nat :=
  Config.headerLen + f * frameLen w h + y * rowLen w + 9 * (x / 8) + 1 + x % 8

/-! ### The header of a stream -/

/-- The header fields a decoder reads (42_sag_encoder.md R191), apart from signature and palette. -/
structure Header where
  version : Byte
  width : Nat
  height : Nat
  frameCount : Nat
  frameDelay : Nat
deriving DecidableEq, Repr

/-- The header at `base` (42_sag_encoder.md R191, 43_sag_decoder.md R230). -/
def headerAt (m : Memory) (base : Nat) : Header where
  version := m.read (base + 3)
  width := m.readBe16 (base + 4)
  height := m.readBe16 (base + 6)
  frameCount := m.readBe16 (base + 8)
  frameDelay := m.readBe16 (base + 10)

/-- Palette slot `i` of the header at `base` (42_sag_encoder.md R191). -/
def headerSlot (m : Memory) (base i : Nat) : Rgb8 where
  r := m.read (base + 12 + 3 * i)
  g := m.read (base + 13 + 3 * i)
  b := m.read (base + 14 + 3 * i)

/-- `sag_len` of the header's dimensions: `need` of 43_sag_decoder.md R230. -/
def Header.need (h : Header) : Nat := sagLen h.width h.height h.frameCount

/-- `frameCount*width*height`: `dlen` of 43_sag_decoder.md R230. -/
def Header.pixels (h : Header) : Nat := h.frameCount * h.width * h.height

/-! ### The regions of the commands -/

/-- The pixel array of `HIST_ACCUM` and `QUANTIZE`: `(SRC_ADDR, 8*PIX_COUNT)`. -/
def pixelRegion (s : State) : Region := ⟨s.operands.srcAddr.toNat, 8 * pixCountNat s⟩

/-- The output of `QUANTIZE`: `(DST_ADDR, PIX_COUNT)`. -/
def indexRegion (s : State) : Region := ⟨s.operands.dstAddr.toNat, pixCountNat s⟩

/-- The frames `ENCODE` reads: `(SRC_ADDR, FRAME_COUNT*WIDTH*HEIGHT)`. -/
def encodeSource (s : State) : Region :=
  ⟨s.operands.srcAddr.toNat,
    s.operands.frameCount.toNat * s.operands.width.toNat * s.operands.height.toNat⟩

/-- The stream `ENCODE` writes: `(DST_ADDR, sag_len)`. -/
def encodeDest (s : State) : Region :=
  ⟨s.operands.dstAddr.toNat,
    sagLen s.operands.width.toNat s.operands.height.toNat s.operands.frameCount.toNat⟩

/-- The bytes available to `DECODE`: `(SRC_ADDR, SRC_LEN)`. -/
def decodeSource (s : State) : Region := ⟨s.operands.srcAddr.toNat, s.operands.srcLen.toNat⟩

/-- The frames `DECODE` writes for a header: `(DST_ADDR, frameCount*width*height)`. -/
def decodeDest (s : State) (h : Header) : Region := ⟨s.operands.dstAddr.toNat, h.pixels⟩

end Sys2Proof.Machine
end

