-- ==== Sys2Proof/Machine/Decoder.lean ====
section
/-!
DEFINITION. The SAG decoder: `sag.decode` (43_sag_decoder.md).
-/
namespace Sys2Proof.Machine

/-- The header of the stream at `SRC_ADDR`. -/
def sourceHeader (s : State) : Header := headerAt s.mem s.operands.srcAddr.toNat

/-- The first three bytes are `SAG` (43_sag_decoder.md R230, check 4). -/
def signatureOk (s : State) : Bool :=
  s.mem.readBytes s.operands.srcAddr.toNat 3 == [0x53, 0x41, 0x47]

/-- The header's bytes: `(SRC_ADDR, 780)`. -/
def headerRegion (s : State) : Region := ⟨s.operands.srcAddr.toNat, Config.headerLen⟩

/-- The frame bytes: `(SRC_ADDR + 780, need - 780)`. -/
def frameRegion (s : State) : Region :=
  ⟨s.operands.srcAddr.toNat + Config.headerLen, (sourceHeader s).need - Config.headerLen⟩

/-- The bytes the decoder consumes: `(SRC_ADDR, need)`. -/
def streamRegion (s : State) : Region := ⟨s.operands.srcAddr.toNat, (sourceHeader s).need⟩

/-- The checks of `DECODE`, in order (43_sag_decoder.md R230). -/
def decodeChecks (s : State) : List Check :=
  [(fun _ => !(decodeSource s).inRange, .addrRange),
   (fun _ => decide (s.operands.srcLen.toNat < Config.headerLen), .formatTruncHeader),
   (fun _ => !(headerRegion s).admitted s.platform .read, .busError),
   (fun _ => !signatureOk s, .formatSignature),
   (fun _ => decide (s.operands.srcLen.toNat < (sourceHeader s).need), .formatTruncFrame),
   (fun _ => !(frameRegion s).admitted s.platform .read, .busError),
   (fun _ => !(decodeDest s (sourceHeader s)).inRange, .addrRange),
   (fun _ => !(decodeDest s (sourceHeader s)).admitted s.platform .write, .busError),
   (fun _ => (streamRegion s).overlaps (decodeDest s (sourceHeader s)), .overlap)]

/-- The index bytes of block `k` of row `y` of frame `f` of the stream at `base`: the mask byte is skipped
(43_sag_decoder.md R230, R232). -/
def decodeBlock (m : Memory) (base w h f y k : Nat) : List Byte :=
  (List.range (blockWidth w k)).map fun b => m.read (base + maskOffset w h f y k + 1 + b)

/-- `out`: the index bytes of all frames, in stream order, which is the order of the frames' layout
(43_sag_decoder.md R230, 20_memory.md R85). -/
def decodeOutput (m : Memory) (base w h frames : Nat) : List Byte :=
  (List.range frames).flatMap fun f => (List.range h).flatMap fun y =>
    (List.range (ceil8 w)).flatMap fun k => decodeBlock m base w h f y k

/-- The writes of `DECODE` (43_sag_decoder.md R230). -/
def decodeCommit (s : State) : State :=
  let base := s.operands.srcAddr.toNat
  let hdr := sourceHeader s
  { s with
    mem := s.mem.writeBytes s.operands.dstAddr.toNat
      (decodeOutput s.mem base hdr.width hdr.height hdr.frameCount)
    palette := PaletteRam.tabulate (headerSlot s.mem base)
    operands := { s.operands with
      palCount := 256
      width := BitVec.ofNat 32 hdr.width
      height := BitVec.ofNat 32 hdr.height
      frameCount := BitVec.ofNat 32 hdr.frameCount
      delay := BitVec.ofNat 32 (hdr.frameDelay / s.platform.delayUnitMs) }
    results := { s.results with
      frameDelayMs := BitVec.ofNat 32 hdr.frameDelay
      hdrVersion := hdr.version.setWidth 32
      outLen := BitVec.ofNat 32 hdr.need } }

/-- `sag.decode`. -/
def execSagDecode (s : State) : Host.Outcome State Fault Refusal :=
  conclude (decodeChecks s) decodeCommit s

end Sys2Proof.Machine
end

