-- ==== Sys2Proof/Machine/Encoder.lean ====
section
/-!
DEFINITION. The SAG encoder: the wire format and `sag.encode` (42_sag_encoder.md).
-/
namespace Sys2Proof.Machine

/-! ### The wire format -/

/-- The palette slot `i` of a header: `PAL[i]` for `i < n`, zero from `n` on (42_sag_encoder.md R192). -/
def slotBytes (pal : PaletteRam) (n i : Nat) : List Byte :=
  if i < n then [(pal.entry i).r, (pal.entry i).g, (pal.entry i).b] else [0, 0, 0]

/-- The 780 bytes of a header (42_sag_encoder.md R191). -/
def headerBytes (w h f delay : Nat) (pal : PaletteRam) (n : Nat) : List Byte :=
  [0x53, 0x41, 0x47, 0x01] ++ bytesBe16 w ++ bytesBe16 h ++ bytesBe16 f ++ bytesBe16 delay ++
    (List.range Config.paletteSize).flatMap (slotBytes pal n)

/-- The mask of block `k` of row `y` of frame `f` (42_sag_encoder.md R194): bit `7 - b` is set when pixel
`8k + b` equals that of the frame before; frame 0 has none set. -/
def maskValue (idx : Nat → Nat → Nat → Byte) (w f y k : Nat) : Nat :=
  if f = 0 then 0
  else ((List.range (blockWidth w k)).map fun b =>
    if idx f (8 * k + b) y = idx (f - 1) (8 * k + b) y then 2 ^ (7 - b) else 0).sum

/-- The index bytes of a block (42_sag_encoder.md R193, R195). -/
def blockIndices (idx : Nat → Nat → Nat → Byte) (w f y k : Nat) : List Byte :=
  (List.range (blockWidth w k)).map fun b => idx f (8 * k + b) y

/-- A block: its mask byte, then its index bytes whatever the mask says (42_sag_encoder.md R193, R195). -/
def blockBytes (idx : Nat → Nat → Nat → Byte) (w f y k : Nat) : List Byte :=
  BitVec.ofNat 8 (maskValue idx w f y k) :: blockIndices idx w f y k

/-- A row: its blocks, left to right (42_sag_encoder.md R193). -/
def rowBytes (idx : Nat → Nat → Nat → Byte) (w f y : Nat) : List Byte :=
  (List.range (ceil8 w)).flatMap (blockBytes idx w f y)

/-- A frame: its rows, top to bottom (42_sag_encoder.md R193). -/
def frameBytes (idx : Nat → Nat → Nat → Byte) (w h f : Nat) : List Byte :=
  (List.range h).flatMap (rowBytes idx w f)

/-- The frame data: the frames in order (42_sag_encoder.md R190). -/
def framesBytes (idx : Nat → Nat → Nat → Byte) (w h frames : Nat) : List Byte :=
  (List.range frames).flatMap (frameBytes idx w h)

/-! ### ENCODE (42_sag_encoder.md R200) -/

/-- `idx(f, x, y)`: an index byte of the frames at `base` (20_memory.md R85). -/
def frameIndex (m : Memory) (base w h f x y : Nat) : Byte := m.read (frameAddr base w h f x y)

/-- `fd`: the header's delay in milliseconds, an unbounded product. -/
def encodeDelay (s : State) : Nat := s.operands.delay.toNat * s.platform.delayUnitMs

/-- `out`: the whole stream. -/
def encodeOutput (s : State) : List Byte :=
  let w := s.operands.width.toNat
  let h := s.operands.height.toNat
  let f := s.operands.frameCount.toNat
  headerBytes w h f (encodeDelay s) s.palette (palCountNat s) ++
    framesBytes (frameIndex s.mem s.operands.srcAddr.toNat w h) w h f

/-- The checks of `ENCODE`, in order. -/
def encodeChecks (s : State) : List Check :=
  [(fun _ => decide (s.operands.width.toNat = 0) || decide (s.operands.height.toNat = 0) ||
      decide (Config.fieldMax < s.operands.width.toNat) ||
      decide (Config.fieldMax < s.operands.height.toNat) ||
      decide (Config.fieldMax < s.operands.frameCount.toNat), .boundsDim),
   (fun _ => decide (Config.paletteSize < palCountNat s), .boundsPalette),
   (fun _ => decide (Config.fieldMax < encodeDelay s), .boundsDelay),
   (fun _ => !(encodeSource s).inRange, .addrRange),
   (fun _ => !(encodeDest s).inRange, .addrRange),
   (fun _ => !(encodeSource s).admitted s.platform .read, .busError),
   (fun _ => !(encodeDest s).admitted s.platform .write, .busError),
   (fun _ => (encodeSource s).overlaps (encodeDest s), .overlap)]

/-- The writes of `ENCODE`. -/
def encodeCommit (s : State) : State :=
  { s with
    mem := s.mem.writeBytes s.operands.dstAddr.toNat (encodeOutput s)
    results := { s.results with
      frameDelayMs := BitVec.ofNat 32 (encodeDelay s)
      hdrVersion := 0x01
      outLen := BitVec.ofNat 32 (encodeDest s).len } }

/-- `sag.encode`. -/
def execSagEncode (s : State) : Host.Outcome State Fault Refusal :=
  conclude (encodeChecks s) encodeCommit s

end Sys2Proof.Machine
end

