-- ==== Sys2Proof/Machine/Histogram.lean ====
section
/-!
DEFINITION. The colour-frequency histogram and the palette extractor: `hist.clear`, `hist.accum`,
`pal.extract` (40_palette_extractor.md).
-/
namespace Sys2Proof.Machine

/-! ### The histogram as a map (10_state.md R60) -/

/-- `H[c]`: the count of a colour, 0 when it is absent. -/
def Histogram.countOf : Histogram → Colour → Nat
  | [], _ => 0
  | e :: h, c => if e.colour = c then e.count else Histogram.countOf h c

/-- `H[c] <- H[c] + 1`, an absent key counting 0 (40_palette_extractor.md R145). -/
def Histogram.addOne : Histogram → Colour → Histogram
  | [], c => [⟨c, 1⟩]
  | e :: h, c =>
    if e.colour = c then ⟨c, e.count + 1⟩ :: h
    else if c.before e.colour then ⟨c, 1⟩ :: e :: h
    else e :: Histogram.addOne h c

/-- `H` after every colour of a list has been counted (40_palette_extractor.md R145). -/
def Histogram.addAll (h : Histogram) (cs : List Colour) : Histogram :=
  cs.foldl Histogram.addOne h

/-- Some count is above `2^48 - 1` (40_palette_extractor.md R145, check 4). -/
def Histogram.overflows (h : Histogram) : Bool := h.any fun e => decide (Config.countMax < e.count)

/-- The histogram is a map in canonical form: keys strictly ascending, every count in `1 .. 2^48 - 1`
(10_state.md R60). -/
abbrev Histogram.wf (h : Histogram) : Prop :=
  List.Pairwise (fun e f : HistEntry => e.colour.before f.colour = true) h ∧
    ∀ e ∈ h, 1 ≤ e.count ∧ e.count ≤ Config.countMax

/-! ### The extraction order (40_palette_extractor.md R151) -/

/-- `c1` comes before `c2` in the palette: a greater count, or an equal count and a lesser key. -/
def extractsBefore (e f : HistEntry) : Bool :=
  decide (f.count < e.count) || (e.count == f.count && e.colour.before f.colour)

/-- `L`: the colours of the histogram in extraction order (40_palette_extractor.md R150). -/
def Histogram.extractionOrder (h : Histogram) : List HistEntry :=
  h.insertionSort fun e f => extractsBefore e f = true

/-- `n`: how many colours an extraction takes (40_palette_extractor.md R150). -/
def extractCount (maxColors : Int) (distinct : Nat) : Nat :=
  if maxColors < 0 then distinct else min maxColors.toNat distinct

/-- `PAL` after an extraction of the first `n` colours of `order` (40_palette_extractor.md R150, R156). -/
def extractedPalette (order : List HistEntry) (n : Nat) : PaletteRam :=
  PaletteRam.tabulate fun i =>
    if i < n then (order[i]?.map fun e => e.colour.proj).getD Rgb8.black else Rgb8.black

/-! ### HIST_CLEAR (40_palette_extractor.md R140) -/

/-- `hist.clear`. -/
def execHistClear (s : State) : Host.Outcome State Fault Refusal :=
  conclude [] (fun s => { s with hist := [] }) s

/-! ### HIST_ACCUM (40_palette_extractor.md R145) -/

/-- `H'`: the histogram with the pixels of the source region counted in. -/
def accumulated (s : State) : Histogram :=
  s.hist.addAll (pixelArray s.mem s.operands.srcAddr.toNat (pixCountNat s))

/-- The checks of `HIST_ACCUM`, in order. -/
def histAccumChecks (s : State) : List Check :=
  [(fun _ => !(pixelRegion s).inRange, .addrRange),
   (fun _ => !(pixelRegion s).admitted s.platform .read, .busError),
   (fun _ => decide (s.platform.histCapacity < (accumulated s).length), .histFull),
   (fun _ => (accumulated s).overflows, .histOverflow)]

/-- `hist.accum`. -/
def execHistAccum (s : State) : Host.Outcome State Fault Refusal :=
  conclude (histAccumChecks s) (fun s => { s with hist := accumulated s }) s

/-! ### PAL_EXTRACT (40_palette_extractor.md R150 to R157) -/

/-- The check of `PAL_EXTRACT`. -/
def palExtractChecks (maxColors : Int) (s : State) : List Check :=
  [(fun _ => decide (Config.paletteSize < extractCount maxColors s.hist.length), .boundsPalette)]

/-- The writes of `PAL_EXTRACT`. -/
def palExtractCommit (maxColors : Int) (s : State) : State :=
  let n := extractCount maxColors s.hist.length
  { s with
    palette := extractedPalette s.hist.extractionOrder n
    operands := { s.operands with palCount := BitVec.ofNat 32 n }
    hist := [] }

/-- `pal.extract #maxColors`. -/
def execPalExtract (maxColors : Int) (s : State) : Host.Outcome State Fault Refusal :=
  conclude (palExtractChecks maxColors s) (palExtractCommit maxColors) s

end Sys2Proof.Machine
end

