-- ==== Sys2Proof/Machine/Nearest.lean ====
section
/-!
DEFINITION. The nearest-colour mapper and the frame quantizer: `map.nearest`, `map.quantize`
(41_nearest_quantizer.md).
-/
namespace Sys2Proof.Machine

/-- The loop of the search (41_nearest_quantizer.md R171): `left` entries from index `i` on, against the
running minimum `best` with its index. An equal distance keeps the earlier entry. -/
def nearestScan (pal : PaletteRam) (q : Rgb8) : Nat → Nat → Nat × Nat → Nat × Nat
  | 0, _, best => best
  | left + 1, i, best =>
    nearestScan pal q left (i + 1)
      (if dist (pal.entry i) q < best.2 then (i, dist (pal.entry i) q) else best)

/-- `nearest_index(q, n)` with its distance (41_nearest_quantizer.md R171). -/
def nearestIndex (pal : PaletteRam) (q : Rgb8) (n : Nat) : Nat × Nat :=
  nearestScan pal q (n - 1) 1 (0, dist (pal.entry 0) q)

/-- The palette checks that `NEAREST` and `QUANTIZE` make first (41_nearest_quantizer.md R170, R176). -/
def paletteChecks (s : State) : List Check :=
  [(fun _ => decide (Config.paletteSize < palCountNat s), .boundsPalette),
   (fun _ => decide (palCountNat s = 0), .emptyPalette)]

/-! ### NEAREST (41_nearest_quantizer.md R170) -/

/-- The writes of `NEAREST`. -/
def nearestCommit (s : State) : State :=
  let found := nearestIndex s.palette (queryColour s).proj (palCountNat s)
  { s with
    results := { s.results with
      resultIndex := BitVec.ofNat 32 found.1
      resultDist := BitVec.ofNat 32 found.2 } }

/-- `map.nearest`. -/
def execMapNearest (s : State) : Host.Outcome State Fault Refusal :=
  conclude (paletteChecks s) nearestCommit s

/-! ### QUANTIZE (41_nearest_quantizer.md R176) -/

/-- The index byte of a colour. -/
def quantizeColour (s : State) (c : Colour) : Byte :=
  BitVec.ofNat 8 (nearestIndex s.palette c.proj (palCountNat s)).1

/-- `out`: one index byte per pixel. -/
def quantizeOutput (s : State) : List Byte :=
  (pixelArray s.mem s.operands.srcAddr.toNat (pixCountNat s)).map (quantizeColour s)

/-- The checks of `QUANTIZE`, in order. -/
def quantizeChecks (s : State) : List Check :=
  paletteChecks s ++
  [(fun _ => !(pixelRegion s).inRange, .addrRange),
   (fun _ => !(indexRegion s).inRange, .addrRange),
   (fun _ => !(pixelRegion s).admitted s.platform .read, .busError),
   (fun _ => !(indexRegion s).admitted s.platform .write, .busError),
   (fun _ => (pixelRegion s).overlaps (indexRegion s), .overlap)]

/-- The writes of `QUANTIZE`: memory only. -/
def quantizeCommit (s : State) : State :=
  { s with mem := s.mem.writeBytes s.operands.dstAddr.toNat (quantizeOutput s) }

/-- `map.quantize`. -/
def execMapQuantize (s : State) : Host.Outcome State Fault Refusal :=
  conclude (quantizeChecks s) quantizeCommit s

end Sys2Proof.Machine
end

