-- ==== Sys2Proof/Machine/Dispatch.lean ====
section
/-!
DEFINITION. The meaning of each command at its completion (60_exceptions.md R263), one arm per constructor.
-/
namespace Sys2Proof.Machine

def exec (i : Instr) (s : State) : Host.Outcome State Fault Refusal :=
  match i with
  | .nop => Sys2Proof.Machine.execNop s
  | .histClear => Sys2Proof.Machine.execHistClear s
  | .histAccum => Sys2Proof.Machine.execHistAccum s
  | .palExtract maxColors => Sys2Proof.Machine.execPalExtract maxColors s
  | .mapNearest => Sys2Proof.Machine.execMapNearest s
  | .mapQuantize => Sys2Proof.Machine.execMapQuantize s
  | .sagEncode => Sys2Proof.Machine.execSagEncode s
  | .sagDecode => Sys2Proof.Machine.execSagDecode s
  | .softReset => Sys2Proof.Machine.execSoftReset s

end Sys2Proof.Machine
end

