-- ==== Sys2Proof/Machine/Hazards.lean ====
section
/-!
DEFINITION. The regions of a pending command, the hazards they make (70_reset_and_hazards.md R300, R301),
and the hardware reset (R291, R292).
-/
namespace Sys2Proof.Machine

/-- A header byte of a pending `DECODE`; an address that does not exist has no byte, and what it counts as
is free [log entry 8]. -/
def pendingHeaderByte (s : State) (a : Nat) : Byte :=
  if a < Config.addrSpace then s.mem.read a else Config.absentByte a

/-- A header field of a pending `DECODE`, at offset `o` of the stream. -/
def pendingField (s : State) (o : Nat) : Nat :=
  be16 (pendingHeaderByte s (s.operands.srcAddr.toNat + o))
    (pendingHeaderByte s (s.operands.srcAddr.toNat + o + 1))

/-- The source region of a command with these operands (70_reset_and_hazards.md R300). -/
def sourceOf (s : State) : Instr → Option Region
  | .histAccum => some (pixelRegion s)
  | .mapQuantize => some (pixelRegion s)
  | .sagEncode => some (encodeSource s)
  | .sagDecode => some (decodeSource s)
  | .nop => none
  | .histClear => none
  | .palExtract _ => none
  | .mapNearest => none
  | .softReset => none

/-- The destination region of a command with these operands (70_reset_and_hazards.md R300). -/
def destOf (s : State) : Instr → Option Region
  | .mapQuantize => some (indexRegion s)
  | .sagEncode => some (encodeDest s)
  | .sagDecode =>
    if s.operands.srcLen.toNat < Config.headerLen then none
    else some ⟨s.operands.dstAddr.toNat, pendingField s 8 * pendingField s 4 * pendingField s 6⟩
  | .nop => none
  | .histClear => none
  | .histAccum => none
  | .palExtract _ => none
  | .mapNearest => none
  | .softReset => none

/-- The source region of the pending command, if the block is busy with one that has it. -/
def pendingSource (s : State) : Option Region :=
  match s.status.busy, pendingCommand s with
  | true, .ok i => sourceOf s i
  | _, _ => none

/-- The destination region of the pending command, if the block is busy with one that has it. -/
def pendingDest (s : State) : Option Region :=
  match s.status.busy, pendingCommand s with
  | true, .ok i => destOf s i
  | _, _ => none

/-- The address is in an optional region. -/
def inRegion (r : Option Region) (a : Nat) : Bool :=
  match r with
  | none => false
  | some r => r.contains a

/-- A host write to the address breaks hazard rule 1 (70_reset_and_hazards.md R300). -/
def writeHazard (s : State) (a : Nat) : Bool := inRegion (pendingSource s) a || inRegion (pendingDest s) a

/-- A host read of the address breaks hazard rule 2 (70_reset_and_hazards.md R301). DESIGN CHOICE (log entry
28): a byte in both the source and the destination region of the pending command, which R301 forbids as
destination and allows as source, counts as destination. -/
def readHazard (s : State) (a : Nat) : Bool := inRegion (pendingDest s) a

/-- How many bytes of a region have an address below `2^32` (70_reset_and_hazards.md R300). -/
def Region.existing (r : Region) : Nat := min r.len (Config.addrSpace - r.addr)

/-- `n` free bytes, drawn from the counter (70_reset_and_hazards.md R292) [log entry 6]. -/
def drawnBytes (s : State) (n : Nat) : List Byte :=
  (List.range n).map fun j => Config.resetByte (s.draws + j)

/-- Every byte of the abandoned command's destination region takes an unspecified value
(70_reset_and_hazards.md R292). -/
def scrambleDest (s : State) : State :=
  match pendingDest s with
  | none => s
  | some r =>
    { s with
      mem := s.mem.writeBytes r.addr (drawnBytes s r.existing)
      draws := s.draws + r.existing }

/-- Hardware reset (70_reset_and_hazards.md R291 to R293), enabled at every state: a pending command is
abandoned, and the block enters the reset state. -/
def hardwareReset (s : State) : State := resetBlock (scrambleDest s)

end Sys2Proof.Machine
end

