-- ==== Sys2Proof/Machine/Flags.lean ====
section
/-!
DEFINITION. The flags: error codes as bits (60_exceptions.md R260), the `STATUS` word and its
write-one-to-clear rule (10_state.md R35, R36), the dropped write (R58), and the interrupt output
(60_exceptions.md R270).
-/
namespace Sys2Proof.Machine

/-- The code of an error as `STATUS.ERR_CODE` shows it (60_exceptions.md R260). -/
def ErrorCode.code : ErrorCode → Byte
  | .noError => 0x00
  | .illegalCommand => 0x01
  | .addrRange => 0x02
  | .busError => 0x03
  | .overlap => 0x04
  | .formatTruncHeader => 0x10
  | .formatSignature => 0x11
  | .formatTruncFrame => 0x12
  | .boundsDim => 0x20
  | .boundsPalette => 0x21
  | .boundsDelay => 0x22
  | .emptyPalette => 0x30
  | .histFull => 0x31
  | .histOverflow => 0x32

/-- One bit of a flag. -/
def flagBit (b : Bool) : BitVec 1 := BitVec.ofBool b

/-- The `STATUS` word (10_state.md R35): `LAST_OP` in 23:16, `ERR_CODE` in 15:8, `OVERRUN`, `ERROR`, `DONE`
and `BUSY` in 3:0, the rest 0. -/
def Status.word (st : Status) : Word :=
  (0#8 ++ st.lastOp ++ st.errCode.code ++ 0#4) ++
    (flagBit st.overrun ++ flagBit st.error ++ flagBit st.done ++ flagBit st.busy)

/-- A host write of `v` to `STATUS` (10_state.md R36). -/
def Status.clearOnes (st : Status) (v : Word) : Status :=
  { st with
    done := st.done && !v.getLsbD 1
    error := st.error && !v.getLsbD 2
    errCode := if v.getLsbD 2 then .noError else st.errCode
    overrun := st.overrun && !v.getLsbD 3 }

/-- A write that is dropped because the block is busy (10_state.md R58): only `OVERRUN` changes. -/
def setOverrun (s : State) : State := { s with status := { s.status with overrun := true } }

/-- `IRQ` (60_exceptions.md R270), with the enables of 10_state.md R37. -/
def State.irq (s : State) : Bool :=
  (s.status.done && s.intEn.getLsbD 0) || (s.status.error && s.intEn.getLsbD 1) ||
    (s.status.overrun && s.intEn.getLsbD 2)

/-- The host's view of `IRQ`: the line the platform routes it to, and its level
(60_exceptions.md R271). -/
def irqAtHost (s : State) : Nat × Bool := (s.platform.irqRoute, s.irq)

end Sys2Proof.Machine
end

