-- ==== Sys2Proof/Machine/Registers.lean ====
section
/-!
DEFINITION. The register window (10_state.md R32 to R58): which register an access reaches, what a read
returns and what a write does.
-/
namespace Sys2Proof.Machine

/-- The registers of the window (10_state.md R32). -/
inductive Reg
  | id
  | cmd
  | status
  | intEn
  | srcAddr
  | srcLen
  | dstAddr
  | pixCount
  | width
  | height
  | frameCount
  | delay
  | palCount
  | queryRG
  | queryBA
  | resultIndex
  | resultDist
  | histDistinct
  | frameDelayMs
  | hdrVersion
  | outLen
  /-- Offsets 0x054 .. 0x3FC (10_state.md R56). -/
  | reserved
  /-- `PALETTE[i]` (10_state.md R55). -/
  | palette (i : Nat)
deriving DecidableEq, Repr

/-- The register at a 4-aligned offset inside the window (10_state.md R32). -/
def regAtOffset (off : Nat) : Reg :=
  match off with
  | 0x000 => .id
  | 0x004 => .cmd
  | 0x008 => .status
  | 0x00C => .intEn
  | 0x010 => .srcAddr
  | 0x014 => .srcLen
  | 0x018 => .dstAddr
  | 0x01C => .pixCount
  | 0x020 => .width
  | 0x024 => .height
  | 0x028 => .frameCount
  | 0x02C => .delay
  | 0x030 => .palCount
  | 0x034 => .queryRG
  | 0x038 => .queryBA
  | 0x03C => .resultIndex
  | 0x040 => .resultDist
  | 0x044 => .histDistinct
  | 0x048 => .frameDelayMs
  | 0x04C => .hdrVersion
  | 0x050 => .outLen
  | _ => if off < 0x400 then .reserved else .palette ((off - 0x400) / 4)

/-- The register an access reaches: `none` for every access that is not 32-bit at a 4-aligned offset inside
the window (10_state.md R57). -/
def regAccess (off width : Nat) : Option Reg :=
  if width = 4 ∧ off % 4 = 0 ∧ off < Config.windowLen then some (regAtOffset off) else none

/-- The offset of a register (10_state.md R32); for the reserved ones, their first. -/
def regOffset : Reg → Nat
  | .id => 0x000
  | .cmd => 0x004
  | .status => 0x008
  | .intEn => 0x00C
  | .srcAddr => 0x010
  | .srcLen => 0x014
  | .dstAddr => 0x018
  | .pixCount => 0x01C
  | .width => 0x020
  | .height => 0x024
  | .frameCount => 0x028
  | .delay => 0x02C
  | .palCount => 0x030
  | .queryRG => 0x034
  | .queryBA => 0x038
  | .resultIndex => 0x03C
  | .resultDist => 0x040
  | .histDistinct => 0x044
  | .frameDelayMs => 0x048
  | .hdrVersion => 0x04C
  | .outLen => 0x050
  | .reserved => 0x054
  | .palette i => 0x400 + 4 * i

/-- Where the platform puts a register in the host's address map: `REG_BASE` plus its offset
(20_memory.md R81). -/
def regHostAddress (s : State) (r : Reg) : Nat := s.platform.regBase + regOffset r

/-- The number of distinct colours, `HIST_DISTINCT` (10_state.md R51). -/
def histDistinct (s : State) : Word := BitVec.ofNat 32 s.hist.length

/-- A palette entry as the host reads it (10_state.md R55). -/
def rgb8Word (e : Rgb8) : Word := 0#8 ++ e.r ++ e.g ++ e.b

/-- A palette entry from the word the host writes (10_state.md R55): bits 31:24 are ignored. -/
def wordRgb8 (v : Word) : Rgb8 := ⟨v.extractLsb' 16 8, v.extractLsb' 8 8, v.extractLsb' 0 8⟩

/-- What a host read of a register returns (10_state.md R33 to R57): its current value, without a side
effect. -/
def readReg (s : State) : Reg → Word
  | .id => Config.idWord
  | .cmd => 0
  | .status => s.status.word
  | .intEn => s.intEn.setWidth 32
  | .srcAddr => s.operands.srcAddr
  | .srcLen => s.operands.srcLen
  | .dstAddr => s.operands.dstAddr
  | .pixCount => s.operands.pixCount
  | .width => s.operands.width
  | .height => s.operands.height
  | .frameCount => s.operands.frameCount
  | .delay => s.operands.delay
  | .palCount => s.operands.palCount
  | .queryRG => s.operands.queryRG
  | .queryBA => s.operands.queryBA
  | .resultIndex => s.results.resultIndex
  | .resultDist => s.results.resultDist
  | .histDistinct => histDistinct s
  | .frameDelayMs => s.results.frameDelayMs
  | .hdrVersion => s.results.hdrVersion
  | .outLen => s.results.outLen
  | .reserved => 0
  | .palette i => rgb8Word (s.palette.entry i)

/-- A write that only an idle block takes; a busy one drops it and sets `OVERRUN` (10_state.md R58). -/
def whenIdle (s : State) (t : State) : State := if s.status.busy then setOverrun s else t

/-- A host register write (10_state.md R58). -/
def writeReg (s : State) (r : Reg) (v : Word) : State :=
  match r with
  | .cmd => whenIdle s (issue v s)
  | .status => { s with status := s.status.clearOnes v }
  | .intEn => { s with intEn := v.setWidth 3 }
  | .srcAddr => whenIdle s { s with operands := { s.operands with srcAddr := v } }
  | .srcLen => whenIdle s { s with operands := { s.operands with srcLen := v } }
  | .dstAddr => whenIdle s { s with operands := { s.operands with dstAddr := v } }
  | .pixCount => whenIdle s { s with operands := { s.operands with pixCount := v } }
  | .width => whenIdle s { s with operands := { s.operands with width := v } }
  | .height => whenIdle s { s with operands := { s.operands with height := v } }
  | .frameCount => whenIdle s { s with operands := { s.operands with frameCount := v } }
  | .delay => whenIdle s { s with operands := { s.operands with delay := v } }
  | .palCount => whenIdle s { s with operands := { s.operands with palCount := v } }
  | .queryRG => whenIdle s { s with operands := { s.operands with queryRG := v } }
  | .queryBA => whenIdle s { s with operands := { s.operands with queryBA := v } }
  | .palette i => whenIdle s { s with palette := s.palette.store i (wordRgb8 v) }
  | .id => s
  | .resultIndex => s
  | .resultDist => s
  | .histDistinct => s
  | .frameDelayMs => s
  | .hdrVersion => s
  | .outLen => s
  | .reserved => s

end Sys2Proof.Machine
end

