-- ==== Sys2Proof/Machine/Script.lean ====
section
/-!
DEFINITION. The host: one step of its program (30_encoding.md R118), and the pseudo-instructions
(R120) as the statements they expand to.
-/
namespace Sys2Proof.Machine

/-- The host learns a value. -/
def learn (r : HostRead) (s : State) : State := { s with seen := r :: s.seen }

/-- Breaking a hazard rule sets the sticky flag (10_state.md R63). -/
def noteHazard (broken : Bool) (s : State) : State := { s with hazard := s.hazard || broken }

/-- A host register write (10_state.md R57, R58). -/
def hostWrite (off width : Nat) (v : Word) (s : State) : Host.Outcome State Fault Refusal :=
  match regAccess off width with
  | none => .refused (.registerAccess off width)
  | some r => .next (writeReg s r v)

/-- A host register read (10_state.md R57): no side effect but the value learnt. -/
def hostRead (off width : Nat) (s : State) : Host.Outcome State Fault Refusal :=
  match regAccess off width with
  | none => .refused (.registerAccess off width)
  | some r => .next (learn (.reg off (readReg s r)) s)

/-- A host write of one byte of memory (70_reset_and_hazards.md R300). -/
def hostStore (a : Nat) (b : Byte) (s : State) : Host.Outcome State Fault Refusal :=
  if a < Config.addrSpace then
    .next (noteHazard (writeHazard s a) { s with mem := s.mem.write a b })
  else .fault (.noSuchAddress a)

/-- A host read of one byte of memory (70_reset_and_hazards.md R301). A read that breaks hazard rule 2 sets
`HAZARD`, and the byte it returns is free [log entry 5]. -/
def hostLoad (a : Nat) (s : State) : Host.Outcome State Fault Refusal :=
  if a < Config.addrSpace then
    if readHazard s a then
      .next (learn (.mem a (Config.hazardByte s.draws))
        (noteHazard true { s with draws := s.draws + 1 }))
    else .next (learn (.mem a (s.mem.read a)) s)
  else .fault (.noSuchAddress a)

/-- `wait` (30_encoding.md R120): one `rd STATUS`; the loop goes on while it reads `BUSY = 1`. -/
def hostWait (s : State) : Host.Outcome State Fault Refusal :=
  let t := learn (.reg (regOffset .status) (readReg s .status)) s
  .next (if s.status.busy then { t with script := .wait :: t.script } else t)

/-- One statement of the host program. -/
def runStmt (st : HostStmt) (s : State) : Host.Outcome State Fault Refusal :=
  match st with
  | .wr off width v => hostWrite off width v s
  | .rd off width => hostRead off width s
  | .storeByte a b => hostStore a b s
  | .loadByte a => hostLoad a s
  | .wait => hostWait s

/-- The host's turn: its next statement, or nothing when the program has ended. -/
def hostTurn (s : State) : Host.Outcome State Fault Refusal :=
  match s.script with
  | [] => .next s
  | st :: rest => runStmt st { s with script := rest }

/-! ### Host programs (30_encoding.md R118, R120) -/

/-- `wr NAME, v`. -/
def wr (r : Reg) (v : Word) : List HostStmt := [.wr (regOffset r) 4 v]

/-- `rd NAME`. -/
def rd (r : Reg) : List HostStmt := [.rd (regOffset r) 4]

/-- `mb a, b0, b1, ...`. -/
def mb : Nat → List Byte → List HostStmt
  | _, [] => []
  | a, b :: bs => .storeByte a b :: mb (a + 1) bs

/-- `mr a, n`. -/
def mr (a n : Nat) : List HostStmt := (List.range n).map fun j => .loadByte (a + j)

/-- `cmd MNEMONIC`: `wr CMD` of the assembled word; nothing for an immediate the assembler refuses
(30_encoding.md R119). -/
def cmd (i : Instr) : Option (List HostStmt) := (assemble i).map (wr .cmd)

/-- `run MNEMONIC`: `cmd MNEMONIC`, then `wait`; nothing where the assembler refuses the immediate. -/
def run (i : Instr) : Option (List HostStmt) := (cmd i).map (· ++ [.wait])

/-- `setq r, g, b, a`. -/
def setq (c : Colour) : List HostStmt := wr .queryRG (c.r ++ c.g) ++ wr .queryBA (c.b ++ c.a)

/-- `setpal i, 0xRRGGBB`. -/
def setpal (i : Nat) (e : Rgb8) : List HostStmt := wr (.palette i) (rgb8Word e)

/-- `ack`. -/
def ack : List HostStmt := wr .status 0x0000000E

end Sys2Proof.Machine
end

