-- ==== Sys2Proof/Machine/Step.lean ====
section
/-!
DEFINITION. One step of the machine: the agent whose turn it is moves (20_memory.md R95,
60_exceptions.md R263, 70_reset_and_hazards.md R291).
-/
namespace Sys2Proof.Machine

/-- Completion (60_exceptions.md R263): the latched word is decoded and its command performed; a word that
is no command completes with an error (R261). -/
def complete (s : State) : Host.Outcome State Fault Refusal :=
  match pendingCommand s with
  | .ok i => exec i s
  | .error _ => completeIllegal s

/-- The engine's turn: completion is enabled exactly while `BUSY = 1` (60_exceptions.md R263). -/
def engineTurn (s : State) : Host.Outcome State Fault Refusal :=
  if s.status.busy then complete s else .next s

/-- One step. The schedule says which agent moves; past its end a busy block completes, and the host runs
while the block is idle [log entry 3]. -/
def step (s : State) : Host.Outcome State Fault Refusal :=
  match s.turns with
  | .engine :: rest => engineTurn { s with turns := rest }
  | .host :: rest => hostTurn { s with turns := rest }
  | .reset :: rest => .next (hardwareReset { s with turns := rest })
  | [] => if s.status.busy then complete s else hostTurn s

/-- The state in which the very next step runs the word `w`: the word issued, and the turn the engine's
[log entry 10]. -/
def State.withFetchWord (s : State) (nbits w : Nat) : State :=
  { issue (tableWord nbits w) s with turns := .engine :: s.turns }

end Sys2Proof.Machine
end

