-- ==== Sys2Proof/Safety.lean ====
section
/-!
DEFINITION. The terms claims are stated in: the legal states (an invariant every step keeps), what a
command's outcome is, runs, the end of a run and its observation (70_reset_and_hazards.md R305).
-/
namespace Sys2Proof.Machine

/-! ### Legal states -/

/-- The parameters are in the ranges of 00_scope.md R11 and R12. -/
abbrev platformLegal (p : Platform) : Prop :=
  1 ≤ p.delayUnitMs ∧ 1 ≤ p.histCapacity ∧ p.histCapacity ≤ 4294967295

/-- `STATUS` is one the lifecycle can reach (60_exceptions.md R262 to R265, 10_state.md R36): `ERROR` is set
exactly when there is an error code, and a busy block shows neither `DONE` nor `ERROR`. -/
abbrev statusLegal (st : Status) : Prop :=
  (st.error = true ↔ st.errCode ≠ .noError) ∧
    (st.busy = true → st.done = false ∧ st.error = false)

/-- While `BUSY = 1`, `LAST_OP` shows bits 7:0 of the latched word (10_state.md R35, R62). -/
abbrev latchShown (s : State) : Prop := s.status.busy = true → s.status.lastOp = opcodeField s.latch

/-- The unused bits of the result registers are 0 (10_state.md R49, R50, R52, R53), and a distance is at most
195075 (00_scope.md R23). -/
abbrev resultsLegal (r : ResultRegs) : Prop :=
  r.resultIndex.toNat < 256 ∧ r.resultDist.toNat ≤ 195075 ∧ r.frameDelayMs.toNat ≤ 65535 ∧
    r.hdrVersion.toNat < 256

/-- The histogram is a map with counts in `1 .. 2^48 - 1` and at most `HIST_CAPACITY` colours
(10_state.md R60, R61). -/
abbrev histLegal (s : State) : Prop :=
  Histogram.wf s.hist ∧ s.hist.length ≤ s.platform.histCapacity

/-- A state the block can be in: the invariant that every step keeps. -/
abbrev State.legal (s : State) : Prop :=
  platformLegal s.platform ∧ statusLegal s.status ∧ latchShown s ∧ resultsLegal s.results ∧
    histLegal s ∧ Memory.wf s.mem

/-! ### Outcomes of commands -/

/-- `STATUS` after a successful completion (60_exceptions.md R264). -/
abbrev doneStatus (st : Status) : Status :=
  { st with busy := false, done := true, error := false, errCode := .noError }

/-- `STATUS` after a failed completion (60_exceptions.md R265). -/
abbrev errorStatus (st : Status) (code : ErrorCode) : Status :=
  { st with busy := false, done := true, error := true, errCode := code }

/-- The command fails with this code: a next state that differs in `STATUS` only
(60_exceptions.md R265, R266). -/
abbrev failsWith (i : Instr) (s : State) (code : ErrorCode) : Prop :=
  exec i s = .next { s with status := errorStatus s.status code }

/-- The region `(a, len)` is in range (20_memory.md R88). -/
abbrev inRangeAt (a len : Nat) : Prop := len ≤ 4294967295 ∧ a + len ≤ 4294967296

/-- The region `(a, len)` is admitted for kind `k` (20_memory.md R89). -/
abbrev admittedAt (p : Platform) (a len : Nat) (k : AccessKind) : Prop :=
  ∀ j, j < len → memAdmits p (a + j) k = true

/-- The regions `(a1, l1)` and `(a2, l2)` overlap (20_memory.md R90). -/
abbrev overlapAt (a1 l1 a2 l2 : Nat) : Prop := 0 < l1 ∧ 0 < l2 ∧ a1 < a2 + l2 ∧ a2 < a1 + l1

/-- `i` is the index the mapper returns for `q` among the first `n` entries: the least index whose
distance is the minimum (41_nearest_quantizer.md R171). -/
abbrev nearestAt (pal : PaletteRam) (q : Rgb8) (n i : Nat) : Prop :=
  i < n ∧ (∀ j, j < n → dist (pal.entry i) q ≤ dist (pal.entry j) q) ∧
    ∀ j, j < i → dist (pal.entry i) q < dist (pal.entry j) q

/-! ### When the commands run without an error, spelled on the state alone -/

/-- `NEAREST` and `QUANTIZE` have a palette (41_nearest_quantizer.md R170, R176). -/
abbrev paletteReady (s : State) : Prop :=
  1 ≤ s.operands.palCount.toNat ∧ s.operands.palCount.toNat ≤ 256

/-- The pixel array of `HIST_ACCUM` and `QUANTIZE` is in range and readable. -/
abbrev pixelsReady (s : State) : Prop :=
  inRangeAt s.operands.srcAddr.toNat (8 * s.operands.pixCount.toNat) ∧
    admittedAt s.platform s.operands.srcAddr.toNat (8 * s.operands.pixCount.toNat) .read

/-- No check of `QUANTIZE` fails (41_nearest_quantizer.md R176). -/
abbrev quantizeReady (s : State) : Prop :=
  paletteReady s ∧ pixelsReady s ∧
    inRangeAt s.operands.dstAddr.toNat s.operands.pixCount.toNat ∧
    admittedAt s.platform s.operands.dstAddr.toNat s.operands.pixCount.toNat .write ∧
    ¬ overlapAt s.operands.srcAddr.toNat (8 * s.operands.pixCount.toNat)
      s.operands.dstAddr.toNat s.operands.pixCount.toNat

/-- `FRAME_COUNT*WIDTH*HEIGHT`, the bytes of the frames `ENCODE` reads. -/
abbrev encodeSrcLen (s : State) : Nat :=
  s.operands.frameCount.toNat * s.operands.width.toNat * s.operands.height.toNat

/-- `780 + F*H*(ceil8(W)+W)`, the bytes of the stream `ENCODE` writes (42_sag_encoder.md R196). -/
abbrev encodeDstLen (s : State) : Nat :=
  780 + s.operands.frameCount.toNat * s.operands.height.toNat *
    ((s.operands.width.toNat + 7) / 8 + s.operands.width.toNat)

/-- The first three checks of `ENCODE` pass (42_sag_encoder.md R200). -/
abbrev imageReady (s : State) : Prop :=
  1 ≤ s.operands.width.toNat ∧ s.operands.width.toNat ≤ 65535 ∧
    1 ≤ s.operands.height.toNat ∧ s.operands.height.toNat ≤ 65535 ∧
    s.operands.frameCount.toNat ≤ 65535 ∧ s.operands.palCount.toNat ≤ 256 ∧
    s.operands.delay.toNat * s.platform.delayUnitMs ≤ 65535

/-- No check of `ENCODE` fails (42_sag_encoder.md R200). -/
abbrev encodeReady (s : State) : Prop :=
  imageReady s ∧
    inRangeAt s.operands.srcAddr.toNat (encodeSrcLen s) ∧
    inRangeAt s.operands.dstAddr.toNat (encodeDstLen s) ∧
    admittedAt s.platform s.operands.srcAddr.toNat (encodeSrcLen s) .read ∧
    admittedAt s.platform s.operands.dstAddr.toNat (encodeDstLen s) .write ∧
    ¬ overlapAt s.operands.srcAddr.toNat (encodeSrcLen s) s.operands.dstAddr.toNat (encodeDstLen s)

/-- The header at `SRC_ADDR` (42_sag_encoder.md R191). -/
abbrev inputHeader (s : State) : Header :=
  headerAt s.mem s.operands.srcAddr.toNat

/-- `need`: the stream length the header implies (42_sag_encoder.md R196). -/
abbrev inputNeed (s : State) : Nat :=
  780 + (inputHeader s).frameCount * (inputHeader s).height *
    (((inputHeader s).width + 7) / 8 + (inputHeader s).width)

/-- `dlen`: the bytes of the decoded frames. -/
abbrev inputPixels (s : State) : Nat :=
  (inputHeader s).frameCount * (inputHeader s).width * (inputHeader s).height

/-- The stream starts with `SAG` (42_sag_encoder.md R191). -/
abbrev inputSigned (s : State) : Prop :=
  s.mem.read s.operands.srcAddr.toNat = 0x53#8 ∧
    s.mem.read (s.operands.srcAddr.toNat + 1) = 0x41#8 ∧
    s.mem.read (s.operands.srcAddr.toNat + 2) = 0x47#8

/-- The checks of `DECODE` on its source pass (43_sag_decoder.md R230, checks 1 to 6). -/
abbrev inputReady (s : State) : Prop :=
  inRangeAt s.operands.srcAddr.toNat s.operands.srcLen.toNat ∧
    780 ≤ s.operands.srcLen.toNat ∧
    admittedAt s.platform s.operands.srcAddr.toNat 780 .read ∧
    inputSigned s ∧ inputNeed s ≤ s.operands.srcLen.toNat ∧
    admittedAt s.platform (s.operands.srcAddr.toNat + 780) (inputNeed s - 780) .read

/-- No check of `DECODE` fails (43_sag_decoder.md R230). -/
abbrev decodeReady (s : State) : Prop :=
  inputReady s ∧
    inRangeAt s.operands.dstAddr.toNat (inputPixels s) ∧
    admittedAt s.platform s.operands.dstAddr.toNat (inputPixels s) .write ∧
    ¬ overlapAt s.operands.srcAddr.toNat (inputNeed s) s.operands.dstAddr.toNat (inputPixels s)

/-- The colours `HIST_ACCUM` counts: pixel `k` at `SRC_ADDR + 8*k` (20_memory.md R84). -/
abbrev inputColours (s : State) : List Colour :=
  pixelArray s.mem s.operands.srcAddr.toNat s.operands.pixCount.toNat

/-- The number of distinct colours of the histogram and the input together. -/
abbrev distinctAfter (s : State) : Nat :=
  (s.hist.map HistEntry.colour ++ inputColours s).dedup.length

/-! ### Runs -/

/-- A run of zero or more steps. -/
inductive Reaches : State → State → Prop
  | refl (s : State) : Reaches s s
  | tail {s t u : State} : Reaches s t → step t = .next u → Reaches s u

/-- The run of a host program has ended (70_reset_and_hazards.md R305). -/
def runEnded (s : State) : Bool := s.script.isEmpty && !s.status.busy

/-- What is observed at the end of a run: memory, the registers, `PAL`, `H` and `HAZARD`
(70_reset_and_hazards.md R305). -/
structure Observation where
  mem : Memory
  status : Status
  intEn : BitVec 3
  operands : OperandRegs
  results : ResultRegs
  palette : PaletteRam
  hist : Histogram
  hazard : Bool
deriving DecidableEq, Repr

/-- The observation of a state (70_reset_and_hazards.md R305). -/
def observe (s : State) : Observation :=
  ⟨s.mem, s.status, s.intEn, s.operands, s.results, s.palette, s.hist, s.hazard⟩

/-- The run is inside the spec (10_state.md R63): a claim about a run takes this as a premise at its end. -/
abbrev insideSpec (s : State) : Prop := s.hazard = false

end Sys2Proof.Machine
end

