-- ==== Sys2Proof/Certificates/Slice0/Obligations.lean ====
section
/-!
DEFINITION. The statements for the provers, each from the numbered rules of spec/ it names. The premises of
the commands' results are the rules' own checks, spelled on the state alone; a next state is written out
whole, so that each result says its frame as well.
-/

open Sys2Proof Sys2Proof.Machine

/-! ### Words -/

/-- Decode and encode agree: every well-formed command is read back from its word, with every immediate
(30_encoding.md R112, R113, R117, R119). -/
def Obligations.DecodeOfEncodeIsTheCommand : Prop :=
  ∀ i : Instr, i.wellFormed = true → decode (encode i) = .ok i

/-- A word that decodes is the word of the command it decodes to, and the command is well formed: no bit of a
legal word is dropped, and no two words mean the same command (30_encoding.md R117). -/
def Obligations.EncodeOfDecodeIsTheWord : Prop :=
  ∀ (w : Word) (i : Instr), decode w = .ok i → i.wellFormed = true ∧ encode i = w

/-- 30_encoding.md R115: exactly these words are legal, and an illegal word, once issued, completes with
`ILLEGAL_COMMAND` and changes no state but `STATUS`. It is stated on completion, under no schedule; which steps
complete is `EngineStepRunsTheDecodedCommand`. -/
def Obligations.LegalWordsAreThoseOfTheMap : Prop :=
  ∀ w : Word,
    ((∃ i, decode w = .ok i) ↔
      ((w.extractLsb' 0 8 ∈ [0x00#8, 0x01#8, 0x02#8, 0x04#8, 0x05#8, 0x06#8, 0x07#8, 0x0F#8] ∧
          w.extractLsb' 8 24 = 0#24) ∨
        (w.extractLsb' 0 8 = 0x03#8 ∧ w.extractLsb' 8 8 = 0#8))) ∧
    ((¬ ∃ i, decode w = .ok i) →
      ∀ s : State, s.status.busy = true → s.latch = w →
        complete s = .next { s with status := errorStatus s.status .illegalCommand })

/-- A word decodes to a command exactly when one row of the opcode map matches it, the row of that command's
name, and no other row does (30_encoding.md R112, R117). -/
def Obligations.DecodedCommandHasOneMatchingRow : Prop :=
  ∀ w : Word,
    (∀ i, decode w = .ok i →
      ∃ row, opcodeMap.filter (fun r => rowMatches r w) = [row] ∧ row.mnemonic = mnemonic i) ∧
    ((∃ row ∈ opcodeMap, rowMatches row w = true) → ∃ i, decode w = .ok i)

/-- 30_encoding.md R113: `maxColors` is `IMM16` read as a signed integer in `-32768 .. 32767`, neither scaled
nor shifted, and a negative one takes every colour of the histogram. -/
def Obligations.ExtractImmediateIsSigned : Prop :=
  ∀ (w : Word) (m : Int), decode w = .ok (.palExtract m) →
    m = (if w.getLsbD 31 then ((w.extractLsb' 16 16).toNat : Int) - 65536
      else ((w.extractLsb' 16 16).toNat : Int)) ∧ -32768 ≤ m ∧ m ≤ 32767 ∧
      (m < 0 → ∀ distinct, extractCount m distinct = distinct)

/-- The assembler encodes `#m` as `m mod 65536` in bits 31:16 and refuses exactly the immediates outside
`-32768 .. 32767` (30_encoding.md R119). -/
def Obligations.AssemblerEncodesOrRefuses : Prop :=
  (∀ i, assemble i = none ↔ ∃ m, i = .palExtract m ∧ (m < -32768 ∨ 32767 < m)) ∧
    ∀ m : Int, -32768 ≤ m → m ≤ 32767 →
      ∃ w, assemble (.palExtract m) = some w ∧
        (((w.extractLsb' 16 16).toNat : Nat) : Int) = m % 65536 ∧ w.extractLsb' 0 16 = 3#16

/-- A few words written out from the map decode to the commands they stand for
(30_encoding.md R112, spec/95_test_vectors.md ILL-1 to ILL-6). -/
def Obligations.SampleWordsDecode : Prop :=
  decode 0x00000000#32 = .ok .nop ∧ decode 0x00000002#32 = .ok .histAccum ∧
    decode 0x01000003#32 = .ok (.palExtract 256) ∧ decode 0xFFFF0003#32 = .ok (.palExtract (-1)) ∧
    decode 0x00000004#32 = .ok .mapNearest ∧ decode 0x00000006#32 = .ok .sagEncode ∧
    decode 0x00000007#32 = .ok .sagDecode ∧ decode 0x0000000F#32 = .ok .softReset ∧
    decode 0x00000008#32 = .error (.reservedOpcode 8) ∧
    decode 0x00010002#32 = .error (.immediateNotZero 1) ∧
    decode 0x00000100#32 = .error (.reservedField 1) ∧
    decode 0x0000FF03#32 = .error (.reservedField 0xFF)

/-! ### Steps and the lifecycle -/

/-- A step runs the decoded command: while `BUSY = 1`, on the engine's turn, a step is `exec` of the command
that `LATCH` decodes to, and for a word that is no command the completion with `ILLEGAL_COMMAND`
(60_exceptions.md R261, R263). The schedule is the model's own field, and that a busy block completes past its
end is the model's choice [log entry 3]. -/
def Obligations.EngineStepRunsTheDecodedCommand : Prop :=
  ∀ s : State, s.status.busy = true →
    (∀ i, decode s.latch = .ok i →
      (s.turns = [] → step s = exec i s) ∧
        ∀ rest, s.turns = .engine :: rest → step s = exec i { s with turns := rest }) ∧
    (∀ e, decode s.latch = .error e →
      (s.turns = [] → step s = .next { s with status := errorStatus s.status .illegalCommand }) ∧
        ∀ rest, s.turns = .engine :: rest →
          step s = .next { s with
            turns := rest, status := errorStatus s.status .illegalCommand })

/-- Issuing a word and stepping the engine runs exactly that command: the state `withFetchWord` builds is the
issued one (60_exceptions.md R262, R263) [log entry 10]. -/
def Obligations.FetchWordStepRunsTheCommand : Prop :=
  ∀ (s : State) (w : Word) (i : Instr), decode w = .ok i →
    step (s.withFetchWord 32 w.toNat) = exec i (issue w s)

/-- 60_exceptions.md R261: an illegal word, once issued, completes with `ERROR = 1` and
`ERR_CODE = 0x01`, changes no other state, and `LAST_OP` shows its bits 7:0. It is stated on completion, under
no schedule; which steps complete is `EngineStepRunsTheDecodedCommand`. -/
def Obligations.IllegalWordCompletesWithError : Prop :=
  ∀ (s : State) (w : Word) (e : IllegalWord), decode w = .error e →
    ∃ t, complete (issue w s) = .next t ∧
      t = { issue w s with status := errorStatus (issue w s).status .illegalCommand } ∧
      t.status.error = true ∧ t.status.errCode.code = 0x01#8 ∧
      t.status.lastOp = w.extractLsb' 0 8

/-- 60_exceptions.md R262: what issue writes; and a `CMD` write while busy is dropped. -/
def Obligations.IssueLatchesTheWord : Prop :=
  ∀ (s : State) (w : Word),
    (s.status.busy = false → writeReg s .cmd w =
      { s with
        latch := w
        status := ⟨true, false, false, s.status.overrun, .noError, w.extractLsb' 0 8⟩ }) ∧
    (s.status.busy = true →
      writeReg s .cmd w = { s with status := { s.status with overrun := true } })

/-- Every command completes, from every state: the block is idle and `DONE` afterwards, and `ERROR` is set
exactly when an error code is shown (60_exceptions.md R263 to R265). -/
def Obligations.EveryCommandEndsIdleAndDone : Prop :=
  ∀ (i : Instr) (s : State), ∃ t, exec i s = .next t ∧ t.status.busy = false ∧
    t.status.done = true ∧ (t.status.error = true ↔ t.status.errCode ≠ .noError)

/-- 60_exceptions.md R266: a failed command changes no state but `STATUS`. -/
def Obligations.FailedCommandChangesOnlyStatus : Prop :=
  ∀ (i : Instr) (s t : State), exec i s = .next t → t.status.error = true →
    t = { s with status := errorStatus s.status t.status.errCode }

/-- Whatever the schedule, a host program that has ended leaves the block idle after at most one step more
than the schedule has turns: no command stays pending (60_exceptions.md R263, 70_reset_and_hazards.md
R306). The schedule and what happens past its end are the model's choice, log entry 3. -/
def Obligations.PendingCommandCompletesUnderEverySchedule : Prop :=
  ∀ s : State, s.script = [] →
    ∃ t, Host.Core.run Sys2Proof.core (s.turns.length + 1) s = .next t ∧
      t.status.busy = false ∧ t.turns = []

/-- While a command stays pending, a step changes none of its operands: the operand registers, the palette,
the histogram, the latch and the result registers keep their values (10_state.md R58, 20_memory.md R101,
70_reset_and_hazards.md R303). -/
def Obligations.OperandsAreHeldWhileBusy : Prop :=
  ∀ s t : State, step s = .next t → s.status.busy = true → t.status.busy = true →
    t.operands = s.operands ∧ t.palette = s.palette ∧ t.hist = s.hist ∧ t.latch = s.latch ∧
      t.results = s.results ∧ t.status.lastOp = s.status.lastOp

/-- Which commands write what (10_state.md R32, the column cmd-written; R62; 20_memory.md R80): a register,
the palette, the histogram, the latch and memory change only under the commands the map names. -/
def Obligations.CommandsWriteOnlyWhatTheMapSays : Prop :=
  ∀ (i : Instr) (s t : State), exec i s = .next t → i ≠ .softReset →
    t.intEn = s.intEn ∧ t.latch = s.latch ∧
    t.operands.srcAddr = s.operands.srcAddr ∧ t.operands.srcLen = s.operands.srcLen ∧
    t.operands.dstAddr = s.operands.dstAddr ∧ t.operands.pixCount = s.operands.pixCount ∧
    t.operands.queryRG = s.operands.queryRG ∧ t.operands.queryBA = s.operands.queryBA ∧
    t.status.lastOp = s.status.lastOp ∧ t.status.overrun = s.status.overrun ∧
    (i ≠ .sagDecode → t.operands.width = s.operands.width ∧ t.operands.height = s.operands.height ∧
      t.operands.frameCount = s.operands.frameCount ∧ t.operands.delay = s.operands.delay) ∧
    (i ≠ .sagDecode → (∀ m, i ≠ .palExtract m) →
      t.operands.palCount = s.operands.palCount ∧ t.palette = s.palette) ∧
    (i ≠ .mapNearest → t.results.resultIndex = s.results.resultIndex ∧
      t.results.resultDist = s.results.resultDist) ∧
    (i ≠ .sagEncode → i ≠ .sagDecode → t.results.frameDelayMs = s.results.frameDelayMs ∧
      t.results.hdrVersion = s.results.hdrVersion ∧ t.results.outLen = s.results.outLen) ∧
    (i ≠ .histClear → i ≠ .histAccum → (∀ m, i ≠ .palExtract m) → t.hist = s.hist) ∧
    (i ≠ .mapQuantize → i ≠ .sagEncode → i ≠ .sagDecode → t.mem = s.mem)

/-! ### Invariants -/

/-- Every step keeps the legal states: parameters in range, `STATUS` one the lifecycle can reach, `LAST_OP`
the latched opcode while busy, unused result bits 0, the histogram a map of at most `HIST_CAPACITY` colours
with counts in `1 .. 2^48 - 1`, and memory in canonical form (the form is the model's choice, log entry 2;
10_state.md, sections on registers, flags and hidden state). -/
def Obligations.EveryStepKeepsLegalStates : Prop :=
  ∀ s t : State, State.legal s → step s = .next t → State.legal t

/-- The state after reset is legal, on every legal platform, the model's own `State.reset` among them (its
platform and its empty memory are the model's choice, log entries 1 and 2). -/
def Obligations.ResetStateIsLegal : Prop :=
  (∀ p, platformLegal p → State.legal (State.resetOn p)) ∧ State.legal State.reset

/-- The parameters do not change during a run (10_state.md R67). That the model holds them in a field of its own
is its choice, log entry 1. -/
def Obligations.EveryStepKeepsTheParameters : Prop :=
  ∀ s t : State, step s = .next t → t.platform = s.platform

/-- `HAZARD` is never cleared, not even by reset (10_state.md R63). -/
def Obligations.HazardIsSticky : Prop :=
  ∀ s t : State, step s = .next t → s.hazard = true → t.hazard = true

/-! ### Control -/

/-- `NOP` completes with no effect beyond `STATUS` (44_control.md R250). -/
def Obligations.NopWritesStatusOnly : Prop :=
  ∀ s : State, exec .nop s = .next { s with status := doneStatus s.status }

/-- `SOFT_RESET` (44_control.md R252) puts every register, the palette RAM, the histogram and the latch into
the reset state and reports its completion; memory, `HAZARD` and the parameters are kept, `STATUS` reads
`0x000F_0002` and `IRQ = 0`. -/
def Obligations.SoftResetRestoresTheResetState : Prop :=
  ∀ s : State, ∃ t, exec .softReset s = .next t ∧
    t.status = ⟨false, true, false, false, .noError, 0x0F#8⟩ ∧ t.intEn = 0#3 ∧
    t.operands = ⟨0, 0, 0, 0, 0, 0, 0, 0, 0, 0, 0⟩ ∧ t.results = ⟨0, 0, 0, 0, 0⟩ ∧
    (∀ i, i < 256 → t.palette.entry i = ⟨0, 0, 0⟩) ∧ t.hist = [] ∧ t.latch = 0#32 ∧
    t.mem = s.mem ∧ t.hazard = s.hazard ∧ t.platform = s.platform ∧ t.script = s.script ∧
    t.turns = s.turns ∧ t.seen = s.seen ∧ t.draws = s.draws ∧
    readReg t .status = 0x000F0002#32 ∧ t.irq = false

/-! ### Histogram and palette extractor -/

/-- `HIST_CLEAR` empties the histogram and writes nothing else but `STATUS`
(40_palette_extractor.md R140). -/
def Obligations.HistClearEmptiesTheHistogram : Prop :=
  ∀ s : State, exec .histClear s = .next { s with hist := [], status := doneStatus s.status } ∧
    ∀ t, exec .histClear s = .next t → readReg t .histDistinct = 0#32

/-- `HIST_ACCUM` adds to every colour's count how often it occurs among the pixels, and writes nothing else
but `STATUS`, whenever the region is in range and readable, the colours fit and no count overflows
(40_palette_extractor.md, HIST_ACCUM: pseudocode and writes). -/
def Obligations.HistAccumCountsThePixels : Prop :=
  ∀ s : State, Histogram.wf s.hist → pixelsReady s → distinctAfter s ≤ s.platform.histCapacity →
    (∀ c, Histogram.countOf s.hist c + (inputColours s).count c ≤ 281474976710655) →
    ∃ h : Histogram,
      exec .histAccum s = .next { s with hist := h, status := doneStatus s.status } ∧
      Histogram.wf h ∧ h.length = distinctAfter s ∧
      ∀ c, Histogram.countOf h c = Histogram.countOf s.hist c + (inputColours s).count c

/-- The errors of `HIST_ACCUM`, in order: each is raised when no earlier check fails, and changes `STATUS`
only (40_palette_extractor.md, HIST_ACCUM: checks; 60_exceptions.md R266, R269). -/
def Obligations.HistAccumRaisesItsErrorsInOrder : Prop :=
  ∀ s : State, Histogram.wf s.hist →
    (¬ inRangeAt s.operands.srcAddr.toNat (8 * s.operands.pixCount.toNat) →
      failsWith .histAccum s .addrRange) ∧
    (inRangeAt s.operands.srcAddr.toNat (8 * s.operands.pixCount.toNat) →
      ¬ admittedAt s.platform s.operands.srcAddr.toNat (8 * s.operands.pixCount.toNat) .read →
      failsWith .histAccum s .busError) ∧
    (pixelsReady s → s.platform.histCapacity < distinctAfter s →
      failsWith .histAccum s .histFull) ∧
    (pixelsReady s → distinctAfter s ≤ s.platform.histCapacity →
      (∃ c, 281474976710655 < Histogram.countOf s.hist c + (inputColours s).count c) →
      failsWith .histAccum s .histOverflow)

/-- The histogram after counting does not depend on the order of the pixels, nor on how they are split
between commands (40_palette_extractor.md R146). -/
def Obligations.CountingIgnoresOrderAndSplit : Prop :=
  ∀ (h : Histogram) (cs ds : List Colour), Histogram.wf h →
    (cs.Perm ds → Histogram.addAll h cs = Histogram.addAll h ds) ∧
      Histogram.addAll h (cs ++ ds) = Histogram.addAll (Histogram.addAll h ds) cs

/-- `PAL_EXTRACT` writes the first `n` colours in the order of count descending and colour ascending,
projected, into the palette RAM, zeroes the rest, sets `PAL_COUNT = n` and empties the histogram; nothing
else changes but `STATUS` (40_palette_extractor.md, PAL_EXTRACT: pseudocode and writes; R151, R156). -/
def Obligations.PalExtractWritesTheSortedPalette : Prop :=
  ∀ (m : Int) (s : State), Histogram.wf s.hist →
    let n : Nat := if m < 0 then s.hist.length else min m.toNat s.hist.length
    n ≤ 256 →
    ∃ (order : List HistEntry) (pal : PaletteRam),
      order.Perm s.hist ∧
      List.Pairwise (fun e f : HistEntry => f.count < e.count ∨
        (e.count = f.count ∧ e.colour.before f.colour = true)) order ∧
      exec (.palExtract m) s = .next { s with
        palette := pal
        operands := { s.operands with palCount := BitVec.ofNat 32 n }
        hist := []
        status := doneStatus s.status } ∧
      (∀ (i : Nat) (h : i < order.length), i < n → pal.entry i = order[i].colour.proj) ∧
      ∀ i, n ≤ i → i < 256 → pal.entry i = ⟨0, 0, 0⟩

/-- `PAL_EXTRACT` raises `BOUNDS_PALETTE` exactly when it would take more than 256 colours: with a negative
`maxColors` or one above 256, and more than 256 distinct colours (40_palette_extractor.md R150, R153). -/
def Obligations.PalExtractRaisesBeyondTheRam : Prop :=
  ∀ (m : Int) (s : State),
    ((m < 0 ∨ 256 < m) ∧ 256 < s.hist.length → failsWith (.palExtract m) s .boundsPalette) ∧
    (¬ ((m < 0 ∨ 256 < m) ∧ 256 < s.hist.length) →
      ∃ t, exec (.palExtract m) s = .next t ∧ t.status.error = false)

/-- 40_palette_extractor.md R154, the palette cap: after a successful extraction with `m ≥ 0`,
`PAL_COUNT = min(m, d)`, at most `m`; with `m < 0`, `PAL_COUNT = d`. -/
def Obligations.PaletteCountIsCapped : Prop :=
  ∀ (m : Int) (s t : State), exec (.palExtract m) s = .next t → t.status.error = false →
    (0 ≤ m → (t.operands.palCount.toNat : Int) = min m s.hist.length ∧
      (t.operands.palCount.toNat : Int) ≤ m) ∧
    (m < 0 → t.operands.palCount.toNat = s.hist.length)

/-! ### Nearest-colour mapper and quantizer -/

/-- The distance is the squared Euclidean distance of the channels, at most 195075, 18 bits
(00_scope.md R23). -/
def Obligations.DistanceIsSquaredEuclidean : Prop :=
  ∀ p q : Rgb8,
    (dist p q : Int) = ((p.r.toNat : Int) - q.r.toNat) ^ 2 + ((p.g.toNat : Int) - q.g.toNat) ^ 2 +
      ((p.b.toNat : Int) - q.b.toNat) ^ 2 ∧ dist p q ≤ 195075 ∧ dist p q < 2 ^ 18

/-- `NEAREST` writes the least index of minimum distance among the entries in use, and that distance, and
nothing else but `STATUS` (41_nearest_quantizer.md, NEAREST: pseudocode and writes; R171, R172, R174). -/
def Obligations.NearestFindsTheFirstClosestEntry : Prop :=
  ∀ s : State, paletteReady s →
    let q : Rgb8 := ⟨s.operands.queryRG.extractLsb' 24 8, s.operands.queryRG.extractLsb' 8 8,
      s.operands.queryBA.extractLsb' 24 8⟩
    ∃ i, nearestAt s.palette q s.operands.palCount.toNat i ∧
      exec .mapNearest s = .next { s with
        results := { s.results with
          resultIndex := BitVec.ofNat 32 i
          resultDist := BitVec.ofNat 32 (dist (s.palette.entry i) q) }
        status := doneStatus s.status }

/-- The errors of `NEAREST` (41_nearest_quantizer.md R170, checks 1 and 2). -/
def Obligations.NearestRaisesItsErrorsInOrder : Prop :=
  ∀ s : State,
    (256 < s.operands.palCount.toNat → failsWith .mapNearest s .boundsPalette) ∧
      (s.operands.palCount.toNat = 0 → failsWith .mapNearest s .emptyPalette)

/-- 41_nearest_quantizer.md R173: with one entry the result is index 0, and its distance. -/
def Obligations.SingleEntryPaletteAnswersIndexZero : Prop :=
  ∀ s : State, s.operands.palCount = 1#32 →
    ∃ t, exec .mapNearest s = .next t ∧ t.results.resultIndex = 0#32 ∧
      t.results.resultDist.toNat = dist (s.palette.entry 0) (queryColour s).proj

/-- Only the top 8 bits of R, G and B of the query count: queries that agree in them give the same result
registers (41_nearest_quantizer.md R175). -/
def Obligations.NearestIgnoresLowBytesAndAlpha : Prop :=
  ∀ (s : State) (rg ba : Word), paletteReady s →
    rg.extractLsb' 24 8 = s.operands.queryRG.extractLsb' 24 8 →
    rg.extractLsb' 8 8 = s.operands.queryRG.extractLsb' 8 8 →
    ba.extractLsb' 24 8 = s.operands.queryBA.extractLsb' 24 8 →
    ∃ t u, exec .mapNearest s = .next t ∧
      exec .mapNearest { s with operands := { s.operands with queryRG := rg, queryBA := ba } } =
        .next u ∧ u.results = t.results

/-- `QUANTIZE` writes at `DST_ADDR + k` the index of the first closest entry to pixel `k`, below
`PAL_COUNT`; every other byte of memory and everything else but `STATUS` is unchanged
(41_nearest_quantizer.md, QUANTIZE: pseudocode and writes; R177). -/
def Obligations.QuantizeWritesOneIndexPerPixel : Prop :=
  ∀ s : State, quantizeReady s →
    ∃ mem : Memory, exec .mapQuantize s = .next { s with mem := mem, status := doneStatus s.status } ∧
      (∀ k, k < s.operands.pixCount.toNat →
        ∃ i, nearestAt s.palette (pixelAt s.mem (s.operands.srcAddr.toNat + 8 * k)).proj
            s.operands.palCount.toNat i ∧
          mem.read (s.operands.dstAddr.toNat + k) = BitVec.ofNat 8 i) ∧
      ∀ a, a < s.operands.dstAddr.toNat ∨
          s.operands.dstAddr.toNat + s.operands.pixCount.toNat ≤ a →
        mem.read a = s.mem.read a

/-- The errors of `QUANTIZE`, in order (41_nearest_quantizer.md R176, checks 1 to 7). -/
def Obligations.QuantizeRaisesItsErrorsInOrder : Prop :=
  ∀ s : State,
    let src := s.operands.srcAddr.toNat
    let dst := s.operands.dstAddr.toNat
    let n := s.operands.pixCount.toNat
    (256 < s.operands.palCount.toNat → failsWith .mapQuantize s .boundsPalette) ∧
    (s.operands.palCount.toNat = 0 → failsWith .mapQuantize s .emptyPalette) ∧
    (paletteReady s → ¬ (inRangeAt src (8 * n) ∧ inRangeAt dst n) →
      failsWith .mapQuantize s .addrRange) ∧
    (paletteReady s → inRangeAt src (8 * n) → inRangeAt dst n →
      ¬ (admittedAt s.platform src (8 * n) .read ∧ admittedAt s.platform dst n .write) →
      failsWith .mapQuantize s .busError) ∧
    (paletteReady s → inRangeAt src (8 * n) → inRangeAt dst n →
      admittedAt s.platform src (8 * n) .read → admittedAt s.platform dst n .write →
      overlapAt src (8 * n) dst n → failsWith .mapQuantize s .overlap)

/-- Output byte `k` depends only on pixel `k` and the palette: a run on another memory and other addresses,
with the same palette, that finds the same colour at its pixel `j` writes the same byte there
(41_nearest_quantizer.md R177). -/
def Obligations.QuantizedByteDependsOnItsPixelOnly : Prop :=
  ∀ (s u : State) (k j : Nat), quantizeReady s → quantizeReady u →
    u.palette = s.palette → u.operands.palCount = s.operands.palCount →
    k < s.operands.pixCount.toNat → j < u.operands.pixCount.toNat →
    pixelAt u.mem (u.operands.srcAddr.toNat + 8 * j) =
      pixelAt s.mem (s.operands.srcAddr.toNat + 8 * k) →
    ∃ t v, exec .mapQuantize s = .next t ∧ exec .mapQuantize u = .next v ∧
      v.mem.read (u.operands.dstAddr.toNat + j) = t.mem.read (s.operands.dstAddr.toNat + k)

/-! ### Encoder -/

/-- `ENCODE` writes a stream that starts with the 780-byte header, whatever the frame count and dimensions,
sets `FRAME_DELAY_MS`, `HDR_VERSION` and `OUT_LEN`, and changes no byte outside the stream and nothing else
but `STATUS` (42_sag_encoder.md, ENCODE: pseudocode and writes; R191, R192, R196, R202, R205). -/
def Obligations.EncodeWritesTheHeader : Prop :=
  ∀ s : State, encodeReady s →
    ∃ mem : Memory,
      exec .sagEncode s = .next { s with
        mem := mem
        results := { s.results with
          frameDelayMs := BitVec.ofNat 32 (s.operands.delay.toNat * s.platform.delayUnitMs)
          hdrVersion := 0x01#32
          outLen := BitVec.ofNat 32 (encodeDstLen s) }
        status := doneStatus s.status } ∧
      mem.readBytes s.operands.dstAddr.toNat 4 = [0x53#8, 0x41#8, 0x47#8, 0x01#8] ∧
      mem.readBe16 (s.operands.dstAddr.toNat + 4) = s.operands.width.toNat ∧
      mem.readBe16 (s.operands.dstAddr.toNat + 6) = s.operands.height.toNat ∧
      mem.readBe16 (s.operands.dstAddr.toNat + 8) = s.operands.frameCount.toNat ∧
      mem.readBe16 (s.operands.dstAddr.toNat + 10) =
        s.operands.delay.toNat * s.platform.delayUnitMs ∧
      (∀ i, i < 256 → mem.readBytes (s.operands.dstAddr.toNat + 12 + 3 * i) 3 =
        if i < s.operands.palCount.toNat then
          [(s.palette.entry i).r, (s.palette.entry i).g, (s.palette.entry i).b]
        else [0#8, 0#8, 0#8]) ∧
      ∀ a, a < s.operands.dstAddr.toNat ∨ s.operands.dstAddr.toNat + encodeDstLen s ≤ a →
        mem.read a = s.mem.read a

/-- 42_sag_encoder.md R193 to R195: the frame data after a successful `ENCODE`. The mask byte of block `k` of
row `y` of frame `f` stands at `off_mask(f, y, k)`, and its bit `7 - b` is 1 exactly when the block has a
pixel `b`, `f > 0` and that pixel equals that of the frame before; the index byte of pixel `(x, y)` stands at
`off_index(f, x, y)` whatever the mask says. -/
def Obligations.EncodeWritesTheFrameData : Prop :=
  ∀ s : State, encodeReady s →
    let w := s.operands.width.toNat
    let h := s.operands.height.toNat
    let rs := (w + 7) / 8 + w
    let fs := h * rs
    let idx : Nat → Nat → Nat → Byte := fun f x y =>
      s.mem.read (s.operands.srcAddr.toNat + f * w * h + y * w + x)
    ∃ t, exec .sagEncode s = .next t ∧
      ∀ f y, f < s.operands.frameCount.toNat → y < h →
        (∀ k, k < (w + 7) / 8 → ∀ b, b < 8 →
          (t.mem.read (s.operands.dstAddr.toNat + (780 + f * fs + y * rs + 9 * k))).getLsbD (7 - b) =
            (decide (8 * k + b < w) && decide (0 < f) &&
              decide (idx f (8 * k + b) y = idx (f - 1) (8 * k + b) y))) ∧
        ∀ x, x < w →
          t.mem.read (s.operands.dstAddr.toNat +
            (780 + f * fs + y * rs + 9 * (x / 8) + 1 + x % 8)) = idx f x y

/-- The errors of `ENCODE`, in order (42_sag_encoder.md R200, checks 1 to 8). -/
def Obligations.EncodeRaisesItsErrorsInOrder : Prop :=
  ∀ s : State,
    let w := s.operands.width.toNat
    let h := s.operands.height.toNat
    let f := s.operands.frameCount.toNat
    let src := s.operands.srcAddr.toNat
    let dst := s.operands.dstAddr.toNat
    let dimsOk : Prop := 1 ≤ w ∧ w ≤ 65535 ∧ 1 ≤ h ∧ h ≤ 65535 ∧ f ≤ 65535
    (¬ dimsOk → failsWith .sagEncode s .boundsDim) ∧
    (dimsOk → 256 < s.operands.palCount.toNat → failsWith .sagEncode s .boundsPalette) ∧
    (dimsOk → s.operands.palCount.toNat ≤ 256 →
      65535 < s.operands.delay.toNat * s.platform.delayUnitMs →
      failsWith .sagEncode s .boundsDelay) ∧
    (imageReady s → ¬ (inRangeAt src (encodeSrcLen s) ∧ inRangeAt dst (encodeDstLen s)) →
      failsWith .sagEncode s .addrRange) ∧
    (imageReady s → inRangeAt src (encodeSrcLen s) → inRangeAt dst (encodeDstLen s) →
      ¬ (admittedAt s.platform src (encodeSrcLen s) .read ∧
        admittedAt s.platform dst (encodeDstLen s) .write) →
      failsWith .sagEncode s .busError) ∧
    (imageReady s → inRangeAt src (encodeSrcLen s) → inRangeAt dst (encodeDstLen s) →
      admittedAt s.platform src (encodeSrcLen s) .read →
      admittedAt s.platform dst (encodeDstLen s) .write →
      overlapAt src (encodeSrcLen s) dst (encodeDstLen s) → failsWith .sagEncode s .overlap)

/-! ### Decoder -/

/-- `DECODE` writes the index byte at `off_index(f, x, y)` of the stream to
`DST_ADDR + f*W*H + y*W + x`, loads the 256 palette slots, `PAL_COUNT = 256` and the header into the
registers, with `DELAY = frameDelay div DELAY_UNIT_MS`, whatever the version byte and the bytes after the last
frame; no other byte of memory and nothing else but `STATUS` changes
(43_sag_decoder.md, DECODE: pseudocode and writes; R231, R233 to R236). -/
def Obligations.DecodeWritesFramesPaletteAndHeader : Prop :=
  ∀ s : State, decodeReady s →
    let src := s.operands.srcAddr.toNat
    let dst := s.operands.dstAddr.toNat
    let w := s.mem.readBe16 (src + 4)
    let h := s.mem.readBe16 (src + 6)
    let frames := s.mem.readBe16 (src + 8)
    let delay := s.mem.readBe16 (src + 10)
    ∃ (mem : Memory) (pal : PaletteRam),
      exec .sagDecode s = .next { s with
        mem := mem
        palette := pal
        operands := { s.operands with
          palCount := 256#32
          width := BitVec.ofNat 32 w
          height := BitVec.ofNat 32 h
          frameCount := BitVec.ofNat 32 frames
          delay := BitVec.ofNat 32 (delay / s.platform.delayUnitMs) }
        results := { s.results with
          frameDelayMs := BitVec.ofNat 32 delay
          hdrVersion := (s.mem.read (src + 3)).setWidth 32
          outLen := BitVec.ofNat 32 (780 + frames * h * ((w + 7) / 8 + w)) }
        status := doneStatus s.status } ∧
      (∀ i, i < 256 → pal.entry i = ⟨s.mem.read (src + 12 + 3 * i),
        s.mem.read (src + 13 + 3 * i), s.mem.read (src + 14 + 3 * i)⟩) ∧
      (∀ f y x, f < frames → y < h → x < w →
        mem.read (dst + f * w * h + y * w + x) =
          s.mem.read (src + (780 + f * (h * ((w + 7) / 8 + w)) + y * ((w + 7) / 8 + w) +
            9 * (x / 8) + 1 + x % 8))) ∧
      ∀ a, a < dst ∨ dst + frames * w * h ≤ a → mem.read a = s.mem.read a

/-- The errors of `DECODE`, in order (43_sag_decoder.md R230, checks 1 to 9). -/
def Obligations.DecodeRaisesItsErrorsInOrder : Prop :=
  ∀ s : State,
    let src := s.operands.srcAddr.toNat
    let len := s.operands.srcLen.toNat
    let dst := s.operands.dstAddr.toNat
    (¬ inRangeAt src len → failsWith .sagDecode s .addrRange) ∧
    (inRangeAt src len → len < 780 → failsWith .sagDecode s .formatTruncHeader) ∧
    (inRangeAt src len → 780 ≤ len → ¬ admittedAt s.platform src 780 .read →
      failsWith .sagDecode s .busError) ∧
    (inRangeAt src len → 780 ≤ len → admittedAt s.platform src 780 .read → ¬ inputSigned s →
      failsWith .sagDecode s .formatSignature) ∧
    (inRangeAt src len → 780 ≤ len → admittedAt s.platform src 780 .read → inputSigned s →
      len < inputNeed s → failsWith .sagDecode s .formatTruncFrame) ∧
    (inRangeAt src len → 780 ≤ len → admittedAt s.platform src 780 .read → inputSigned s →
      inputNeed s ≤ len → ¬ admittedAt s.platform (src + 780) (inputNeed s - 780) .read →
      failsWith .sagDecode s .busError) ∧
    (inputReady s → ¬ inRangeAt dst (inputPixels s) → failsWith .sagDecode s .addrRange) ∧
    (inputReady s → inRangeAt dst (inputPixels s) →
      ¬ admittedAt s.platform dst (inputPixels s) .write → failsWith .sagDecode s .busError) ∧
    (inputReady s → inRangeAt dst (inputPixels s) →
      admittedAt s.platform dst (inputPixels s) .write →
      overlapAt src (inputNeed s) dst (inputPixels s) → failsWith .sagDecode s .overlap)

/-- 43_sag_decoder.md R232: mask bytes have no effect. A memory that agrees on the header and on every index
byte of the stream, whatever its mask bytes, decodes to the same frames, palette and registers, and every
pixel is the index byte of the stream, not one of the frame before. -/
def Obligations.DecodeIgnoresMaskBytes : Prop :=
  ∀ (s : State) (mem : Memory), decodeReady s →
    let src := s.operands.srcAddr.toNat
    let hdr := inputHeader s
    (∀ j, j < 780 → mem.read (src + j) = s.mem.read (src + j)) →
    (∀ f y x, f < hdr.frameCount → y < hdr.height → x < hdr.width →
      mem.read (src + indexOffset hdr.width hdr.height f x y) =
        s.mem.read (src + indexOffset hdr.width hdr.height f x y)) →
    ∃ t u, exec .sagDecode s = .next t ∧ exec .sagDecode { s with mem := mem } = .next u ∧
      u = { t with mem := u.mem } ∧
      ∀ f y x, f < hdr.frameCount → y < hdr.height → x < hdr.width →
        u.mem.read (frameAddr s.operands.dstAddr.toNat hdr.width hdr.height f x y) =
            t.mem.read (frameAddr s.operands.dstAddr.toNat hdr.width hdr.height f x y) ∧
          u.mem.read (frameAddr s.operands.dstAddr.toNat hdr.width hdr.height f x y) =
            s.mem.read (src + indexOffset hdr.width hdr.height f x y)

/-- The round trip (43_sag_decoder.md R238): after a successful `ENCODE`, a `DECODE` of the stream it wrote,
of `OUT_LEN` bytes, to a region that overlaps nothing, writes exactly the index bytes that were encoded and
leaves `WIDTH`, `HEIGHT`, `FRAME_COUNT` and `DELAY` as they were, the palette entries in use as before, the
others zero, and `PAL_COUNT = 256`. -/
def Obligations.DecodeOfEncodeReturnsTheFrames : Prop :=
  ∀ (s : State) (u : Word), encodeReady s → 1 ≤ s.platform.delayUnitMs →
    admittedAt s.platform s.operands.dstAddr.toNat (encodeDstLen s) .read →
    inRangeAt u.toNat (encodeSrcLen s) →
    admittedAt s.platform u.toNat (encodeSrcLen s) .write →
    ¬ overlapAt s.operands.dstAddr.toNat (encodeDstLen s) u.toNat (encodeSrcLen s) →
    ∃ t v, exec .sagEncode s = .next t ∧
      exec .sagDecode { t with operands := { t.operands with
        srcAddr := s.operands.dstAddr, srcLen := t.results.outLen, dstAddr := u } } = .next v ∧
      v.status.error = false ∧
      (∀ j, j < encodeSrcLen s →
        v.mem.read (u.toNat + j) = s.mem.read (s.operands.srcAddr.toNat + j)) ∧
      v.operands.width = s.operands.width ∧ v.operands.height = s.operands.height ∧
      v.operands.frameCount = s.operands.frameCount ∧ v.operands.delay = s.operands.delay ∧
      v.operands.palCount = 256#32 ∧
      ∀ i, i < 256 → v.palette.entry i =
        if i < s.operands.palCount.toNat then s.palette.entry i else ⟨0, 0, 0⟩

/-! ### Registers, interrupt, host -/

/-- The `STATUS` word (10_state.md R35): each field at its bits, reserved bits 0, and bits 15:8 the code that
60_exceptions.md R260 gives the error. -/
def Obligations.StatusWordHasItsFields : Prop :=
  ∀ s : State,
    let v := readReg s .status
    v.getLsbD 0 = s.status.busy ∧ v.getLsbD 1 = s.status.done ∧ v.getLsbD 2 = s.status.error ∧
      v.getLsbD 3 = s.status.overrun ∧ v.extractLsb' 4 4 = 0#4 ∧
      v.extractLsb' 8 8 = (match s.status.errCode with
        | .noError => 0x00#8
        | .illegalCommand => 0x01#8
        | .addrRange => 0x02#8
        | .busError => 0x03#8
        | .overlap => 0x04#8
        | .formatTruncHeader => 0x10#8
        | .formatSignature => 0x11#8
        | .formatTruncFrame => 0x12#8
        | .boundsDim => 0x20#8
        | .boundsPalette => 0x21#8
        | .boundsDelay => 0x22#8
        | .emptyPalette => 0x30#8
        | .histFull => 0x31#8
        | .histOverflow => 0x32#8) ∧
      v.extractLsb' 16 8 = s.status.lastOp ∧ v.extractLsb' 24 8 = 0#8

/-- 10_state.md R36: what a host write to `STATUS` clears, busy or idle. -/
def Obligations.StatusWriteClearsByOnes : Prop :=
  ∀ (s : State) (v : Word),
    writeReg s .status v = { s with status :=
      ⟨s.status.busy,
        if v.getLsbD 1 then false else s.status.done,
        if v.getLsbD 2 then false else s.status.error,
        if v.getLsbD 3 then false else s.status.overrun,
        if v.getLsbD 2 then .noError else s.status.errCode,
        s.status.lastOp⟩ }

/-- 10_state.md R58: the effect of a host register write, offset by offset, idle and busy. -/
def Obligations.RegisterWritesFollowTheMap : Prop :=
  ∀ (s : State) (off : Nat) (v : Word), off % 4 = 0 → off < 0x800 →
    (off = 0x008 → hostWrite off 4 v s = .next { s with status :=
      ⟨s.status.busy,
        if v.getLsbD 1 then false else s.status.done,
        if v.getLsbD 2 then false else s.status.error,
        if v.getLsbD 3 then false else s.status.overrun,
        if v.getLsbD 2 then .noError else s.status.errCode,
        s.status.lastOp⟩ }) ∧
    (off = 0x00C → hostWrite off 4 v s = .next { s with intEn := v.extractLsb' 0 3 }) ∧
    (off = 0x004 ∨ (0x010 ≤ off ∧ off ≤ 0x038) ∨ 0x400 ≤ off → s.status.busy = true →
      hostWrite off 4 v s = .next { s with status := { s.status with overrun := true } }) ∧
    (s.status.busy = false →
      (off = 0x004 → hostWrite off 4 v s = .next { s with
        latch := v
        status := ⟨true, false, false, s.status.overrun, .noError, v.extractLsb' 0 8⟩ }) ∧
      (0x010 ≤ off → off ≤ 0x038 → ∃ ops,
        hostWrite off 4 v s = .next { s with operands := ops } ∧
        (∀ r, r ≠ regAtOffset off →
          readReg { s with operands := ops } r = readReg s r) ∧
        readReg { s with operands := ops } (regAtOffset off) = v) ∧
      (0x400 ≤ off → ∃ pal : PaletteRam, hostWrite off 4 v s = .next { s with palette := pal } ∧
        pal.entry ((off - 0x400) / 4) =
          ⟨v.extractLsb' 16 8, v.extractLsb' 8 8, v.extractLsb' 0 8⟩ ∧
        ∀ i, i < 256 → i ≠ (off - 0x400) / 4 → pal.entry i = s.palette.entry i)) ∧
    (off = 0x000 ∨ (0x03C ≤ off ∧ off < 0x400) → hostWrite off 4 v s = .next s)

/-- A step of the host runs the next statement of its program, on the host's turn and past the end of the
schedule while the block is idle; with no statement left it changes nothing. The program and the schedule are
the model's own fields, log entries 3 and 10 (30_encoding.md R118). -/
def Obligations.HostStepRunsTheNextStatement : Prop :=
  ∀ (s : State) (st : HostStmt) (rest : List HostStmt) (turns : List Turn),
    (s.turns = .host :: turns → s.script = st :: rest →
      step s = runStmt st { s with turns := turns, script := rest }) ∧
    (s.turns = [] → s.status.busy = false → s.script = st :: rest →
      step s = runStmt st { s with script := rest }) ∧
    (s.turns = [] → s.status.busy = false → s.script = [] → step s = .next s) ∧
    (s.turns = .host :: turns → s.script = [] → step s = .next { s with turns := turns })

/-- `wait` reads `STATUS` once a turn and stays the next statement exactly while the value read has bit 0
equal to 1; nothing of the block changes (30_encoding.md R120). The record `seen` is the model's own, log entry
13. -/
def Obligations.WaitPollsUntilIdle : Prop :=
  ∀ s : State, runStmt .wait s = .next { s with
    seen := .reg 0x008 (readReg s .status) :: s.seen
    script := if (readReg s .status).getLsbD 0 then .wait :: s.script else s.script }

/-- What the pseudo-instructions expand to (30_encoding.md R118 to R120): `cmd` is the write of the assembled
word to `CMD` and `run` that write and `wait`, both refused exactly where the assembler refuses the immediate
(R119); `setq`, `setpal` and `ack` are writes of the words R120 gives. -/
def Obligations.PseudoInstructionsExpand : Prop :=
  (∀ i : Instr, assemble i = none → cmd i = none ∧ Machine.run i = none) ∧
  (∀ (i : Instr) (w : Word), assemble i = some w →
    cmd i = some [.wr 0x004 4 w] ∧ Machine.run i = some [.wr 0x004 4 w, .wait]) ∧
  (∀ c : Colour, ∃ rg ba : Word, setq c = [.wr 0x034 4 rg, .wr 0x038 4 ba] ∧
    rg.toNat = c.r.toNat * 65536 + c.g.toNat ∧ ba.toNat = c.b.toNat * 65536 + c.a.toNat) ∧
  (∀ (i : Nat) (e : Rgb8), i < 256 → ∃ v : Word, setpal i e = [.wr (0x400 + 4 * i) 4 v] ∧
    v.toNat = e.r.toNat * 65536 + e.g.toNat * 256 + e.b.toNat) ∧
  Machine.ack = [HostStmt.wr 0x008 4 0x0000000E#32]

/-- 10_state.md R57: an access that is not 32-bit at a 4-aligned offset inside the window is refused; every
other read returns the register's value and has no side effect. What the host learns stands in the model's own
field `seen` [log entry 13]. -/
def Obligations.OnlyAlignedWordAccessesReachRegisters : Prop :=
  ∀ (s : State) (off width : Nat) (v : Word),
    (¬ (width = 4 ∧ off % 4 = 0 ∧ off < 0x800) →
      hostRead off width s = .refused (.registerAccess off width) ∧
        hostWrite off width v s = .refused (.registerAccess off width)) ∧
    (width = 4 → off % 4 = 0 → off < 0x800 →
      hostRead off width s =
        .next { s with seen := .reg off (readReg s (regAtOffset off)) :: s.seen })

/-- What each register of the map reads at its offset (10_state.md R32 to R34, R37 to R56): `ID` its constant,
`CMD` and the reserved offsets 0, `STATUS` its word (the fields of which `StatusWordHasItsFields` says),
`INT_EN` three bits, the operand and result registers their values, `HIST_DISTINCT` the number of distinct
colours, `PALETTE[i]` the entry with bits 31:24 zero. -/
def Obligations.RegisterReadsFollowTheMap : Prop :=
  ∀ s : State, histLegal s → platformLegal s.platform →
    readReg s (regAtOffset 0x000) = 0x53414701#32 ∧ readReg s (regAtOffset 0x004) = 0#32 ∧
      readReg s (regAtOffset 0x008) = s.status.word ∧
      (readReg s (regAtOffset 0x00C)).toNat = s.intEn.toNat ∧
      readReg s (regAtOffset 0x010) = s.operands.srcAddr ∧
      readReg s (regAtOffset 0x014) = s.operands.srcLen ∧
      readReg s (regAtOffset 0x018) = s.operands.dstAddr ∧
      readReg s (regAtOffset 0x01C) = s.operands.pixCount ∧
      readReg s (regAtOffset 0x020) = s.operands.width ∧
      readReg s (regAtOffset 0x024) = s.operands.height ∧
      readReg s (regAtOffset 0x028) = s.operands.frameCount ∧
      readReg s (regAtOffset 0x02C) = s.operands.delay ∧
      readReg s (regAtOffset 0x030) = s.operands.palCount ∧
      readReg s (regAtOffset 0x034) = s.operands.queryRG ∧
      readReg s (regAtOffset 0x038) = s.operands.queryBA ∧
      readReg s (regAtOffset 0x03C) = s.results.resultIndex ∧
      readReg s (regAtOffset 0x040) = s.results.resultDist ∧
      (readReg s (regAtOffset 0x044)).toNat = s.hist.length ∧
      readReg s (regAtOffset 0x048) = s.results.frameDelayMs ∧
      readReg s (regAtOffset 0x04C) = s.results.hdrVersion ∧
      readReg s (regAtOffset 0x050) = s.results.outLen ∧
      (∀ off, 0x054 ≤ off → off < 0x400 → readReg s (regAtOffset off) = 0#32) ∧
      ∀ i, i < 256 →
        (readReg s (regAtOffset (0x400 + 4 * i))).toNat =
          (s.palette.entry i).r.toNat * 65536 + (s.palette.entry i).g.toNat * 256 +
            (s.palette.entry i).b.toNat

/-- 60_exceptions.md R270: `IRQ` from the bits of `STATUS` and `INT_EN` as the host reads them. -/
def Obligations.InterruptFollowsStatusAndEnables : Prop :=
  ∀ s : State,
    s.irq = (((readReg s .status).getLsbD 1 && (readReg s .intEn).getLsbD 0) ||
      ((readReg s .status).getLsbD 2 && (readReg s .intEn).getLsbD 1) ||
      ((readReg s .status).getLsbD 3 && (readReg s .intEn).getLsbD 2))

/-- The state after reset (70_reset_and_hazards.md R290): `ID` is the only register that reads nonzero,
`IRQ = 0`, the palette is zero, the histogram empty and the latch 0, on every platform. `HAZARD` is false there
because the state is also the start of a run (10_state.md R63); a reset during a run keeps it. -/
def Obligations.OnlyIdReadsNonzeroAfterReset : Prop :=
  ∀ (p : Platform),
    readReg (State.resetOn p) .id = 0x53414701#32 ∧
      (∀ r, r ≠ .id → readReg (State.resetOn p) r = 0#32) ∧
      (State.resetOn p).status = ⟨false, false, false, false, .noError, 0#8⟩ ∧
      (State.resetOn p).irq = false ∧ (State.resetOn p).hist = [] ∧
      (∀ i, i < 256 → (State.resetOn p).palette.entry i = ⟨0, 0, 0⟩) ∧
      (State.resetOn p).latch = 0#32 ∧ (State.resetOn p).hazard = false

/-- Hardware reset (70_reset_and_hazards.md R291 to R293), from every state: the block is in the reset state,
`HAZARD` and the parameters are kept, and no byte of memory changes outside the destination region of a
pending command; none at all when the block was idle. The schedule that asserts the reset, and the fields of the
parameters and the host, are the model's own, log entries 1, 3 and 10. -/
def Obligations.HardwareResetKeepsMemoryOutsideTheDestination : Prop :=
  ∀ (s : State) (rest : List Turn), s.turns = .reset :: rest →
    ∃ t, step s = .next t ∧
      t.status = ⟨false, false, false, false, .noError, 0#8⟩ ∧ t.intEn = 0#3 ∧
      t.operands = ⟨0, 0, 0, 0, 0, 0, 0, 0, 0, 0, 0⟩ ∧ t.results = ⟨0, 0, 0, 0, 0⟩ ∧
      (∀ i, i < 256 → t.palette.entry i = ⟨0, 0, 0⟩) ∧ t.hist = [] ∧ t.latch = 0#32 ∧
      t.hazard = s.hazard ∧ t.platform = s.platform ∧ t.script = s.script ∧ t.turns = rest ∧
      (s.status.busy = false → t.mem = s.mem) ∧
      ∀ a, (∀ i r, decode s.latch = .ok i → destOf s i = some r →
          ¬ (r.addr ≤ a ∧ a < r.addr + r.len)) →
        t.mem.read a = s.mem.read a

/-- Hazard rule 1 (70_reset_and_hazards.md R300), for the commands whose regions the registers give: a host
write to an address below `2^32` stores the byte, and sets `HAZARD` exactly when the block is busy and the
address is in a region of the pending command. That the byte of a hazardous store lands is the model's choice
(log entry 5), and so is that a store lands whatever `MEM_ADMITS` says (log entry 9). For a `DECODE` whose header
reaches past `2^32` the destination region rests on free values (log entry 8), so only its source region is
stated. -/
def Obligations.HostStoreIntoPendingRegionsIsAHazard : Prop :=
  ∀ (s : State) (a : Nat) (b : Byte), a < 4294967296 →
    ∃ t, hostStore a b s = .next t ∧ (∀ x, t.mem.read x = if x = a then b else s.mem.read x) ∧
      t = { s with mem := t.mem, hazard := t.hazard } ∧
      (s.hazard = true → t.hazard = true) ∧ (s.status.busy = false → t.hazard = s.hazard) ∧
      (s.hazard = false → s.status.busy = true →
        (decode s.latch = .ok .histAccum → (t.hazard = true ↔
          s.operands.srcAddr.toNat ≤ a ∧
            a < s.operands.srcAddr.toNat + 8 * s.operands.pixCount.toNat)) ∧
        (decode s.latch = .ok .mapQuantize → (t.hazard = true ↔
          (s.operands.srcAddr.toNat ≤ a ∧
            a < s.operands.srcAddr.toNat + 8 * s.operands.pixCount.toNat) ∨
          (s.operands.dstAddr.toNat ≤ a ∧
            a < s.operands.dstAddr.toNat + s.operands.pixCount.toNat))) ∧
        (decode s.latch = .ok .sagEncode → (t.hazard = true ↔
          (s.operands.srcAddr.toNat ≤ a ∧ a < s.operands.srcAddr.toNat + encodeSrcLen s) ∨
          (s.operands.dstAddr.toNat ≤ a ∧ a < s.operands.dstAddr.toNat + encodeDstLen s))) ∧
        (decode s.latch = .ok .sagDecode → s.operands.srcLen.toNat < 780 → (t.hazard = true ↔
          s.operands.srcAddr.toNat ≤ a ∧
            a < s.operands.srcAddr.toNat + s.operands.srcLen.toNat)) ∧
        (decode s.latch = .ok .sagDecode → 780 ≤ s.operands.srcLen.toNat →
          s.operands.srcAddr.toNat + 780 ≤ 4294967296 → (t.hazard = true ↔
          (s.operands.srcAddr.toNat ≤ a ∧
            a < s.operands.srcAddr.toNat + s.operands.srcLen.toNat) ∨
          (s.operands.dstAddr.toNat ≤ a ∧
            a < s.operands.dstAddr.toNat + inputPixels s))) ∧
        (decode s.latch = .ok .sagDecode → s.operands.srcAddr.toNat ≤ a →
          a < s.operands.srcAddr.toNat + s.operands.srcLen.toNat → t.hazard = true) ∧
        (decode s.latch = .ok .nop ∨ decode s.latch = .ok .histClear ∨
          decode s.latch = .ok .mapNearest ∨ decode s.latch = .ok .softReset ∨
          (∃ m, decode s.latch = .ok (.palExtract m)) ∨ (∃ e, decode s.latch = .error e) →
          t.hazard = false))

/-- Hazard rule 2 (70_reset_and_hazards.md R301): a host read of an address below `2^32` changes no memory;
outside the destination region of a pending command it returns the byte and sets no `HAZARD`, inside it sets
`HAZARD` (the byte it then returns is a free value, log entry 5). The record of what is returned is the model's
own field (log entry 13), that a load reads memory whatever `MEM_ADMITS` says is its choice (log entry 9), and so
is that a byte in both regions counts as destination (log entry 28). -/
def Obligations.HostLoadFromPendingDestinationIsAHazard : Prop :=
  ∀ (s : State) (a : Nat), a < 4294967296 →
    ((s.status.busy = false ∨ ∀ i r, decode s.latch = .ok i → destOf s i = some r →
        ¬ (r.addr ≤ a ∧ a < r.addr + r.len)) →
      hostLoad a s = .next { s with seen := .mem a (s.mem.read a) :: s.seen }) ∧
    (∀ i r, s.status.busy = true → decode s.latch = .ok i → destOf s i = some r →
      r.addr ≤ a → a < r.addr + r.len →
      ∃ t, hostLoad a s = .next t ∧ t.hazard = true ∧ t.mem = s.mem ∧
        t.status = s.status ∧ t.operands = s.operands ∧ t.latch = s.latch)

/-! ### Memory and pixels -/

/-- Read after write (00_scope.md R20): a block of bytes written reads back, every other byte is unchanged,
and the canonical form of memory is kept. -/
def Obligations.MemoryReadsBackWhatWasWritten : Prop :=
  ∀ (m : Memory) (addr : Nat) (bs : List Byte), Memory.wf m → addr + bs.length ≤ 4294967296 →
    Memory.readBytes (Memory.writeBytes m addr bs) addr bs.length = bs ∧
      (∀ a, a < addr ∨ addr + bs.length ≤ a →
        Memory.read (Memory.writeBytes m addr bs) a = Memory.read m a) ∧
      Memory.wf (Memory.writeBytes m addr bs)

/-- 20_memory.md R84: a pixel is four big-endian channels. -/
def Obligations.PixelIsFourBigEndianChannels : Prop :=
  ∀ (m : Memory) (a : Nat),
    (pixelAt m a).r.toNat = (m.read a).toNat * 256 + (m.read (a + 1)).toNat ∧
      (pixelAt m a).g.toNat = (m.read (a + 2)).toNat * 256 + (m.read (a + 3)).toNat ∧
      (pixelAt m a).b.toNat = (m.read (a + 4)).toNat * 256 + (m.read (a + 5)).toNat ∧
      (pixelAt m a).a.toNat = (m.read (a + 6)).toNat * 256 + (m.read (a + 7)).toNat ∧
      ∀ base n k, k < n → (pixelArray m base n)[k]? = some (pixelAt m (base + 8 * k))

/-- The key order and the projection of colours (00_scope.md R22): lexicographic on (R, G, B, A), and the top
8 bits of R, G and B. -/
def Obligations.ColoursAreOrderedLexicographically : Prop :=
  ∀ c d : Colour,
    (c.before d = true ↔
      c.r.toNat < d.r.toNat ∨ (c.r = d.r ∧ (c.g.toNat < d.g.toNat ∨
        (c.g = d.g ∧ (c.b.toNat < d.b.toNat ∨ (c.b = d.b ∧ c.a.toNat < d.a.toNat)))))) ∧
      c.proj.r.toNat = c.r.toNat / 256 ∧ c.proj.g.toNat = c.g.toNat / 256 ∧
      c.proj.b.toNat = c.b.toNat / 256
end

