-- ==== Sys2Proof/Laws/Colour.lean ====
section
/-!
SUPPORT. The key order of colours is a strict total order (00_scope.md R22), and the range of the distance
(R23).
-/
namespace Sys2Proof.Machine

/-- The four channels as one number; the key order is the order of these numbers. -/
def Colour.key (c : Colour) : Nat :=
  ((c.r.toNat * 65536 + c.g.toNat) * 65536 + c.b.toNat) * 65536 + c.a.toNat

theorem Colour.before_iff_key (c d : Colour) : c.before d = true ↔ c.key < d.key := by
  have hc1 := c.r.isLt; have hc2 := c.g.isLt; have hc3 := c.b.isLt; have hc4 := c.a.isLt
  have hd1 := d.r.isLt; have hd2 := d.g.isLt; have hd3 := d.b.isLt; have hd4 := d.a.isLt
  simp only [Colour.before, Colour.key, Bool.or_eq_true, Bool.and_eq_true, decide_eq_true_eq,
    beq_iff_eq, BitVec.toNat_eq]
  omega

theorem Colour.key_injective {c d : Colour} (h : c.key = d.key) : c = d := by
  have hc1 := c.r.isLt; have hc2 := c.g.isLt; have hc3 := c.b.isLt; have hc4 := c.a.isLt
  have hd1 := d.r.isLt; have hd2 := d.g.isLt; have hd3 := d.b.isLt; have hd4 := d.a.isLt
  cases c with | mk r g b a => cases d with | mk r' g' b' a' =>
  simp only [Colour.key] at *
  simp only [Colour.mk.injEq, BitVec.toNat_eq]
  omega

theorem Colour.before_irrefl (c : Colour) : c.before c = false := by
  rw [← Bool.not_eq_true, Colour.before_iff_key]; exact Nat.lt_irrefl _

theorem Colour.before_trans {c d e : Colour} (h : c.before d = true) (h' : d.before e = true) :
    c.before e = true := by
  rw [Colour.before_iff_key] at *; omega

theorem Colour.before_or_eq (c d : Colour) : c.before d = true ∨ c = d ∨ d.before c = true := by
  rw [Colour.before_iff_key, Colour.before_iff_key]
  rcases Nat.lt_trichotomy c.key d.key with h | h | h
  · exact .inl h
  · exact .inr (.inl (Colour.key_injective h))
  · exact .inr (.inr h)

theorem Colour.before_asymm {c d : Colour} (h : c.before d = true) : d.before c = false := by
  rw [← Bool.not_eq_true]; rw [Colour.before_iff_key] at *; omega

/-! ### Distance -/

theorem squareDiff_eq_zero {x y : Byte} : squareDiff x y = 0 ↔ x = y := by
  unfold squareDiff
  constructor
  · intro h
    have h0 : 0 ≤ ((x.toNat : Int) - y.toNat) * ((x.toNat : Int) - y.toNat) := mul_self_nonneg _
    have h1 : ((x.toNat : Int) - y.toNat) * ((x.toNat : Int) - y.toNat) = 0 := by
      simp only at h; omega
    have h2 := mul_self_eq_zero.1 h1
    exact BitVec.eq_of_toNat_eq (by omega)
  · rintro rfl; simp

theorem squareDiff_le (x y : Byte) : squareDiff x y ≤ 65025 := by
  unfold squareDiff
  have hx := x.isLt; have hy := y.isLt
  have : ((x.toNat : Int) - y.toNat) * ((x.toNat : Int) - y.toNat) ≤ 65025 := by
    have h1 : (x.toNat : Int) - y.toNat ≤ 255 := by omega
    have h2 : -255 ≤ (x.toNat : Int) - y.toNat := by omega
    nlinarith
  simp only
  omega

/-- The distance is at most `3 * 255^2` (00_scope.md R23). -/
theorem dist_le (p q : Rgb8) : dist p q ≤ 195075 := by
  have h1 := squareDiff_le p.r q.r
  have h2 := squareDiff_le p.g q.g
  have h3 := squareDiff_le p.b q.b
  unfold dist
  omega

/-- Distance 0 means equal entries. -/
theorem dist_eq_zero {p q : Rgb8} : dist p q = 0 ↔ p = q := by
  cases p with | mk r g b => cases q with | mk r' g' b' =>
  simp [dist, squareDiff_eq_zero, and_assoc]

end Sys2Proof.Machine
end

