-- ==== Sys2Proof/Laws/State.lean ====
section
/-!
SUPPORT. One lemma per field per named update of the state, so that no later proof unfolds a record update.
-/
namespace Sys2Proof.Machine

/-! ### `issue` -/

@[simp] theorem issue_status (w : Word) (s : State) :
    (issue w s).status =
    { s.status with
      busy := true, done := false, error := false, errCode := .noError, lastOp := opcodeField w } := rfl

@[simp] theorem issue_intEn (w : Word) (s : State) :
    (issue w s).intEn = s.intEn := rfl

@[simp] theorem issue_operands (w : Word) (s : State) :
    (issue w s).operands = s.operands := rfl

@[simp] theorem issue_results (w : Word) (s : State) :
    (issue w s).results = s.results := rfl

@[simp] theorem issue_palette (w : Word) (s : State) :
    (issue w s).palette = s.palette := rfl

@[simp] theorem issue_hist (w : Word) (s : State) :
    (issue w s).hist = s.hist := rfl

@[simp] theorem issue_latch (w : Word) (s : State) :
    (issue w s).latch = w := rfl

@[simp] theorem issue_mem (w : Word) (s : State) :
    (issue w s).mem = s.mem := rfl

@[simp] theorem issue_hazard (w : Word) (s : State) :
    (issue w s).hazard = s.hazard := rfl

@[simp] theorem issue_platform (w : Word) (s : State) :
    (issue w s).platform = s.platform := rfl

@[simp] theorem issue_script (w : Word) (s : State) :
    (issue w s).script = s.script := rfl

@[simp] theorem issue_turns (w : Word) (s : State) :
    (issue w s).turns = s.turns := rfl

@[simp] theorem issue_seen (w : Word) (s : State) :
    (issue w s).seen = s.seen := rfl

@[simp] theorem issue_draws (w : Word) (s : State) :
    (issue w s).draws = s.draws := rfl

/-! ### `succeed` -/

@[simp] theorem succeed_status (s : State) :
    (succeed s).status =
    { s.status with busy := false, done := true, error := false, errCode := .noError } := rfl

@[simp] theorem succeed_intEn (s : State) :
    (succeed s).intEn = s.intEn := rfl

@[simp] theorem succeed_operands (s : State) :
    (succeed s).operands = s.operands := rfl

@[simp] theorem succeed_results (s : State) :
    (succeed s).results = s.results := rfl

@[simp] theorem succeed_palette (s : State) :
    (succeed s).palette = s.palette := rfl

@[simp] theorem succeed_hist (s : State) :
    (succeed s).hist = s.hist := rfl

@[simp] theorem succeed_latch (s : State) :
    (succeed s).latch = s.latch := rfl

@[simp] theorem succeed_mem (s : State) :
    (succeed s).mem = s.mem := rfl

@[simp] theorem succeed_hazard (s : State) :
    (succeed s).hazard = s.hazard := rfl

@[simp] theorem succeed_platform (s : State) :
    (succeed s).platform = s.platform := rfl

@[simp] theorem succeed_script (s : State) :
    (succeed s).script = s.script := rfl

@[simp] theorem succeed_turns (s : State) :
    (succeed s).turns = s.turns := rfl

@[simp] theorem succeed_seen (s : State) :
    (succeed s).seen = s.seen := rfl

@[simp] theorem succeed_draws (s : State) :
    (succeed s).draws = s.draws := rfl

/-! ### `raiseError` -/

@[simp] theorem raiseError_status (code : ErrorCode) (s : State) :
    (raiseError code s).status =
    { s.status with busy := false, done := true, error := true, errCode := code } := rfl

@[simp] theorem raiseError_intEn (code : ErrorCode) (s : State) :
    (raiseError code s).intEn = s.intEn := rfl

@[simp] theorem raiseError_operands (code : ErrorCode) (s : State) :
    (raiseError code s).operands = s.operands := rfl

@[simp] theorem raiseError_results (code : ErrorCode) (s : State) :
    (raiseError code s).results = s.results := rfl

@[simp] theorem raiseError_palette (code : ErrorCode) (s : State) :
    (raiseError code s).palette = s.palette := rfl

@[simp] theorem raiseError_hist (code : ErrorCode) (s : State) :
    (raiseError code s).hist = s.hist := rfl

@[simp] theorem raiseError_latch (code : ErrorCode) (s : State) :
    (raiseError code s).latch = s.latch := rfl

@[simp] theorem raiseError_mem (code : ErrorCode) (s : State) :
    (raiseError code s).mem = s.mem := rfl

@[simp] theorem raiseError_hazard (code : ErrorCode) (s : State) :
    (raiseError code s).hazard = s.hazard := rfl

@[simp] theorem raiseError_platform (code : ErrorCode) (s : State) :
    (raiseError code s).platform = s.platform := rfl

@[simp] theorem raiseError_script (code : ErrorCode) (s : State) :
    (raiseError code s).script = s.script := rfl

@[simp] theorem raiseError_turns (code : ErrorCode) (s : State) :
    (raiseError code s).turns = s.turns := rfl

@[simp] theorem raiseError_seen (code : ErrorCode) (s : State) :
    (raiseError code s).seen = s.seen := rfl

@[simp] theorem raiseError_draws (code : ErrorCode) (s : State) :
    (raiseError code s).draws = s.draws := rfl

/-! ### `resetBlock` -/

@[simp] theorem resetBlock_status (s : State) :
    (resetBlock s).status = Status.reset := rfl

@[simp] theorem resetBlock_intEn (s : State) :
    (resetBlock s).intEn = 0 := rfl

@[simp] theorem resetBlock_operands (s : State) :
    (resetBlock s).operands = OperandRegs.reset := rfl

@[simp] theorem resetBlock_results (s : State) :
    (resetBlock s).results = ResultRegs.reset := rfl

@[simp] theorem resetBlock_palette (s : State) :
    (resetBlock s).palette = Vector.replicate 256 Rgb8.black := rfl

@[simp] theorem resetBlock_hist (s : State) :
    (resetBlock s).hist = [] := rfl

@[simp] theorem resetBlock_latch (s : State) :
    (resetBlock s).latch = 0 := rfl

@[simp] theorem resetBlock_mem (s : State) :
    (resetBlock s).mem = s.mem := rfl

@[simp] theorem resetBlock_hazard (s : State) :
    (resetBlock s).hazard = s.hazard := rfl

@[simp] theorem resetBlock_platform (s : State) :
    (resetBlock s).platform = s.platform := rfl

@[simp] theorem resetBlock_script (s : State) :
    (resetBlock s).script = s.script := rfl

@[simp] theorem resetBlock_turns (s : State) :
    (resetBlock s).turns = s.turns := rfl

@[simp] theorem resetBlock_seen (s : State) :
    (resetBlock s).seen = s.seen := rfl

@[simp] theorem resetBlock_draws (s : State) :
    (resetBlock s).draws = s.draws := rfl

/-! ### `setOverrun` -/

@[simp] theorem setOverrun_status (s : State) :
    (setOverrun s).status = { s.status with overrun := true } := rfl

@[simp] theorem setOverrun_intEn (s : State) :
    (setOverrun s).intEn = s.intEn := rfl

@[simp] theorem setOverrun_operands (s : State) :
    (setOverrun s).operands = s.operands := rfl

@[simp] theorem setOverrun_results (s : State) :
    (setOverrun s).results = s.results := rfl

@[simp] theorem setOverrun_palette (s : State) :
    (setOverrun s).palette = s.palette := rfl

@[simp] theorem setOverrun_hist (s : State) :
    (setOverrun s).hist = s.hist := rfl

@[simp] theorem setOverrun_latch (s : State) :
    (setOverrun s).latch = s.latch := rfl

@[simp] theorem setOverrun_mem (s : State) :
    (setOverrun s).mem = s.mem := rfl

@[simp] theorem setOverrun_hazard (s : State) :
    (setOverrun s).hazard = s.hazard := rfl

@[simp] theorem setOverrun_platform (s : State) :
    (setOverrun s).platform = s.platform := rfl

@[simp] theorem setOverrun_script (s : State) :
    (setOverrun s).script = s.script := rfl

@[simp] theorem setOverrun_turns (s : State) :
    (setOverrun s).turns = s.turns := rfl

@[simp] theorem setOverrun_seen (s : State) :
    (setOverrun s).seen = s.seen := rfl

@[simp] theorem setOverrun_draws (s : State) :
    (setOverrun s).draws = s.draws := rfl

/-! ### `learn` -/

@[simp] theorem learn_status (r : HostRead) (s : State) :
    (learn r s).status = s.status := rfl

@[simp] theorem learn_intEn (r : HostRead) (s : State) :
    (learn r s).intEn = s.intEn := rfl

@[simp] theorem learn_operands (r : HostRead) (s : State) :
    (learn r s).operands = s.operands := rfl

@[simp] theorem learn_results (r : HostRead) (s : State) :
    (learn r s).results = s.results := rfl

@[simp] theorem learn_palette (r : HostRead) (s : State) :
    (learn r s).palette = s.palette := rfl

@[simp] theorem learn_hist (r : HostRead) (s : State) :
    (learn r s).hist = s.hist := rfl

@[simp] theorem learn_latch (r : HostRead) (s : State) :
    (learn r s).latch = s.latch := rfl

@[simp] theorem learn_mem (r : HostRead) (s : State) :
    (learn r s).mem = s.mem := rfl

@[simp] theorem learn_hazard (r : HostRead) (s : State) :
    (learn r s).hazard = s.hazard := rfl

@[simp] theorem learn_platform (r : HostRead) (s : State) :
    (learn r s).platform = s.platform := rfl

@[simp] theorem learn_script (r : HostRead) (s : State) :
    (learn r s).script = s.script := rfl

@[simp] theorem learn_turns (r : HostRead) (s : State) :
    (learn r s).turns = s.turns := rfl

@[simp] theorem learn_seen (r : HostRead) (s : State) :
    (learn r s).seen = r :: s.seen := rfl

@[simp] theorem learn_draws (r : HostRead) (s : State) :
    (learn r s).draws = s.draws := rfl

/-! ### `noteHazard` -/

@[simp] theorem noteHazard_status (broken : Bool) (s : State) :
    (noteHazard broken s).status = s.status := rfl

@[simp] theorem noteHazard_intEn (broken : Bool) (s : State) :
    (noteHazard broken s).intEn = s.intEn := rfl

@[simp] theorem noteHazard_operands (broken : Bool) (s : State) :
    (noteHazard broken s).operands = s.operands := rfl

@[simp] theorem noteHazard_results (broken : Bool) (s : State) :
    (noteHazard broken s).results = s.results := rfl

@[simp] theorem noteHazard_palette (broken : Bool) (s : State) :
    (noteHazard broken s).palette = s.palette := rfl

@[simp] theorem noteHazard_hist (broken : Bool) (s : State) :
    (noteHazard broken s).hist = s.hist := rfl

@[simp] theorem noteHazard_latch (broken : Bool) (s : State) :
    (noteHazard broken s).latch = s.latch := rfl

@[simp] theorem noteHazard_mem (broken : Bool) (s : State) :
    (noteHazard broken s).mem = s.mem := rfl

@[simp] theorem noteHazard_hazard (broken : Bool) (s : State) :
    (noteHazard broken s).hazard = (s.hazard || broken) := rfl

@[simp] theorem noteHazard_platform (broken : Bool) (s : State) :
    (noteHazard broken s).platform = s.platform := rfl

@[simp] theorem noteHazard_script (broken : Bool) (s : State) :
    (noteHazard broken s).script = s.script := rfl

@[simp] theorem noteHazard_turns (broken : Bool) (s : State) :
    (noteHazard broken s).turns = s.turns := rfl

@[simp] theorem noteHazard_seen (broken : Bool) (s : State) :
    (noteHazard broken s).seen = s.seen := rfl

@[simp] theorem noteHazard_draws (broken : Bool) (s : State) :
    (noteHazard broken s).draws = s.draws := rfl

/-! ### `softResetState` -/

@[simp] theorem softResetState_status (s : State) :
    (softResetState s).status =
    { Status.reset with done := true, lastOp := 0x0F } := rfl

@[simp] theorem softResetState_intEn (s : State) :
    (softResetState s).intEn = 0 := rfl

@[simp] theorem softResetState_operands (s : State) :
    (softResetState s).operands = OperandRegs.reset := rfl

@[simp] theorem softResetState_results (s : State) :
    (softResetState s).results = ResultRegs.reset := rfl

@[simp] theorem softResetState_palette (s : State) :
    (softResetState s).palette = Vector.replicate 256 Rgb8.black := rfl

@[simp] theorem softResetState_hist (s : State) :
    (softResetState s).hist = [] := rfl

@[simp] theorem softResetState_latch (s : State) :
    (softResetState s).latch = 0 := rfl

@[simp] theorem softResetState_mem (s : State) :
    (softResetState s).mem = s.mem := rfl

@[simp] theorem softResetState_hazard (s : State) :
    (softResetState s).hazard = s.hazard := rfl

@[simp] theorem softResetState_platform (s : State) :
    (softResetState s).platform = s.platform := rfl

@[simp] theorem softResetState_script (s : State) :
    (softResetState s).script = s.script := rfl

@[simp] theorem softResetState_turns (s : State) :
    (softResetState s).turns = s.turns := rfl

@[simp] theorem softResetState_seen (s : State) :
    (softResetState s).seen = s.seen := rfl

@[simp] theorem softResetState_draws (s : State) :
    (softResetState s).draws = s.draws := rfl

/-! ### `palExtractCommit` -/

@[simp] theorem palExtractCommit_status (m : Int) (s : State) :
    (palExtractCommit m s).status = s.status := rfl

@[simp] theorem palExtractCommit_intEn (m : Int) (s : State) :
    (palExtractCommit m s).intEn = s.intEn := rfl

@[simp] theorem palExtractCommit_operands (m : Int) (s : State) :
    (palExtractCommit m s).operands =
    { s.operands with
      palCount := BitVec.ofNat 32 (extractCount m s.hist.length) } := rfl

@[simp] theorem palExtractCommit_results (m : Int) (s : State) :
    (palExtractCommit m s).results = s.results := rfl

@[simp] theorem palExtractCommit_palette (m : Int) (s : State) :
    (palExtractCommit m s).palette =
    extractedPalette s.hist.extractionOrder (extractCount m s.hist.length) := rfl

@[simp] theorem palExtractCommit_hist (m : Int) (s : State) :
    (palExtractCommit m s).hist = [] := rfl

@[simp] theorem palExtractCommit_latch (m : Int) (s : State) :
    (palExtractCommit m s).latch = s.latch := rfl

@[simp] theorem palExtractCommit_mem (m : Int) (s : State) :
    (palExtractCommit m s).mem = s.mem := rfl

@[simp] theorem palExtractCommit_hazard (m : Int) (s : State) :
    (palExtractCommit m s).hazard = s.hazard := rfl

@[simp] theorem palExtractCommit_platform (m : Int) (s : State) :
    (palExtractCommit m s).platform = s.platform := rfl

@[simp] theorem palExtractCommit_script (m : Int) (s : State) :
    (palExtractCommit m s).script = s.script := rfl

@[simp] theorem palExtractCommit_turns (m : Int) (s : State) :
    (palExtractCommit m s).turns = s.turns := rfl

@[simp] theorem palExtractCommit_seen (m : Int) (s : State) :
    (palExtractCommit m s).seen = s.seen := rfl

@[simp] theorem palExtractCommit_draws (m : Int) (s : State) :
    (palExtractCommit m s).draws = s.draws := rfl

/-! ### `nearestCommit` -/

@[simp] theorem nearestCommit_status (s : State) :
    (nearestCommit s).status = s.status := rfl

@[simp] theorem nearestCommit_intEn (s : State) :
    (nearestCommit s).intEn = s.intEn := rfl

@[simp] theorem nearestCommit_operands (s : State) :
    (nearestCommit s).operands = s.operands := rfl

@[simp] theorem nearestCommit_results (s : State) :
    (nearestCommit s).results =
    { s.results with
      resultIndex := BitVec.ofNat 32
        (nearestIndex s.palette (queryColour s).proj (palCountNat s)).1
      resultDist := BitVec.ofNat 32
        (nearestIndex s.palette (queryColour s).proj (palCountNat s)).2 } := rfl

@[simp] theorem nearestCommit_palette (s : State) :
    (nearestCommit s).palette = s.palette := rfl

@[simp] theorem nearestCommit_hist (s : State) :
    (nearestCommit s).hist = s.hist := rfl

@[simp] theorem nearestCommit_latch (s : State) :
    (nearestCommit s).latch = s.latch := rfl

@[simp] theorem nearestCommit_mem (s : State) :
    (nearestCommit s).mem = s.mem := rfl

@[simp] theorem nearestCommit_hazard (s : State) :
    (nearestCommit s).hazard = s.hazard := rfl

@[simp] theorem nearestCommit_platform (s : State) :
    (nearestCommit s).platform = s.platform := rfl

@[simp] theorem nearestCommit_script (s : State) :
    (nearestCommit s).script = s.script := rfl

@[simp] theorem nearestCommit_turns (s : State) :
    (nearestCommit s).turns = s.turns := rfl

@[simp] theorem nearestCommit_seen (s : State) :
    (nearestCommit s).seen = s.seen := rfl

@[simp] theorem nearestCommit_draws (s : State) :
    (nearestCommit s).draws = s.draws := rfl

/-! ### `quantizeCommit` -/

@[simp] theorem quantizeCommit_status (s : State) :
    (quantizeCommit s).status = s.status := rfl

@[simp] theorem quantizeCommit_intEn (s : State) :
    (quantizeCommit s).intEn = s.intEn := rfl

@[simp] theorem quantizeCommit_operands (s : State) :
    (quantizeCommit s).operands = s.operands := rfl

@[simp] theorem quantizeCommit_results (s : State) :
    (quantizeCommit s).results = s.results := rfl

@[simp] theorem quantizeCommit_palette (s : State) :
    (quantizeCommit s).palette = s.palette := rfl

@[simp] theorem quantizeCommit_hist (s : State) :
    (quantizeCommit s).hist = s.hist := rfl

@[simp] theorem quantizeCommit_latch (s : State) :
    (quantizeCommit s).latch = s.latch := rfl

@[simp] theorem quantizeCommit_mem (s : State) :
    (quantizeCommit s).mem =
    s.mem.writeBytes s.operands.dstAddr.toNat (quantizeOutput s) := rfl

@[simp] theorem quantizeCommit_hazard (s : State) :
    (quantizeCommit s).hazard = s.hazard := rfl

@[simp] theorem quantizeCommit_platform (s : State) :
    (quantizeCommit s).platform = s.platform := rfl

@[simp] theorem quantizeCommit_script (s : State) :
    (quantizeCommit s).script = s.script := rfl

@[simp] theorem quantizeCommit_turns (s : State) :
    (quantizeCommit s).turns = s.turns := rfl

@[simp] theorem quantizeCommit_seen (s : State) :
    (quantizeCommit s).seen = s.seen := rfl

@[simp] theorem quantizeCommit_draws (s : State) :
    (quantizeCommit s).draws = s.draws := rfl

/-! ### `encodeCommit` -/

@[simp] theorem encodeCommit_status (s : State) :
    (encodeCommit s).status = s.status := rfl

@[simp] theorem encodeCommit_intEn (s : State) :
    (encodeCommit s).intEn = s.intEn := rfl

@[simp] theorem encodeCommit_operands (s : State) :
    (encodeCommit s).operands = s.operands := rfl

@[simp] theorem encodeCommit_results (s : State) :
    (encodeCommit s).results =
    { s.results with
      frameDelayMs := BitVec.ofNat 32 (encodeDelay s)
      hdrVersion := 0x01
      outLen := BitVec.ofNat 32 (encodeDest s).len } := rfl

@[simp] theorem encodeCommit_palette (s : State) :
    (encodeCommit s).palette = s.palette := rfl

@[simp] theorem encodeCommit_hist (s : State) :
    (encodeCommit s).hist = s.hist := rfl

@[simp] theorem encodeCommit_latch (s : State) :
    (encodeCommit s).latch = s.latch := rfl

@[simp] theorem encodeCommit_mem (s : State) :
    (encodeCommit s).mem =
    s.mem.writeBytes s.operands.dstAddr.toNat (encodeOutput s) := rfl

@[simp] theorem encodeCommit_hazard (s : State) :
    (encodeCommit s).hazard = s.hazard := rfl

@[simp] theorem encodeCommit_platform (s : State) :
    (encodeCommit s).platform = s.platform := rfl

@[simp] theorem encodeCommit_script (s : State) :
    (encodeCommit s).script = s.script := rfl

@[simp] theorem encodeCommit_turns (s : State) :
    (encodeCommit s).turns = s.turns := rfl

@[simp] theorem encodeCommit_seen (s : State) :
    (encodeCommit s).seen = s.seen := rfl

@[simp] theorem encodeCommit_draws (s : State) :
    (encodeCommit s).draws = s.draws := rfl

/-! ### `decodeCommit` -/

@[simp] theorem decodeCommit_status (s : State) :
    (decodeCommit s).status = s.status := rfl

@[simp] theorem decodeCommit_intEn (s : State) :
    (decodeCommit s).intEn = s.intEn := rfl

@[simp] theorem decodeCommit_operands (s : State) :
    (decodeCommit s).operands =
    { s.operands with
      palCount := 256
      width := BitVec.ofNat 32 (sourceHeader s).width
      height := BitVec.ofNat 32 (sourceHeader s).height
      frameCount := BitVec.ofNat 32 (sourceHeader s).frameCount
      delay := BitVec.ofNat 32 ((sourceHeader s).frameDelay / s.platform.delayUnitMs) } := rfl

@[simp] theorem decodeCommit_results (s : State) :
    (decodeCommit s).results =
    { s.results with
      frameDelayMs := BitVec.ofNat 32 (sourceHeader s).frameDelay
      hdrVersion := (sourceHeader s).version.setWidth 32
      outLen := BitVec.ofNat 32 (sourceHeader s).need } := rfl

@[simp] theorem decodeCommit_palette (s : State) :
    (decodeCommit s).palette =
    PaletteRam.tabulate (headerSlot s.mem s.operands.srcAddr.toNat) := rfl

@[simp] theorem decodeCommit_hist (s : State) :
    (decodeCommit s).hist = s.hist := rfl

@[simp] theorem decodeCommit_latch (s : State) :
    (decodeCommit s).latch = s.latch := rfl

@[simp] theorem decodeCommit_mem (s : State) :
    (decodeCommit s).mem =
    s.mem.writeBytes s.operands.dstAddr.toNat
      (decodeOutput s.mem s.operands.srcAddr.toNat (sourceHeader s).width (sourceHeader s).height
        (sourceHeader s).frameCount) := rfl

@[simp] theorem decodeCommit_hazard (s : State) :
    (decodeCommit s).hazard = s.hazard := rfl

@[simp] theorem decodeCommit_platform (s : State) :
    (decodeCommit s).platform = s.platform := rfl

@[simp] theorem decodeCommit_script (s : State) :
    (decodeCommit s).script = s.script := rfl

@[simp] theorem decodeCommit_turns (s : State) :
    (decodeCommit s).turns = s.turns := rfl

@[simp] theorem decodeCommit_seen (s : State) :
    (decodeCommit s).seen = s.seen := rfl

@[simp] theorem decodeCommit_draws (s : State) :
    (decodeCommit s).draws = s.draws := rfl

end Sys2Proof.Machine
end

