-- ==== Sys2Proof/Laws/Lifecycle.lean ====
section
/-!
SUPPORT. What checking and committing can do, when a list of checks passes, and what the checks of regions
say; every command completes.
-/
namespace Sys2Proof.Machine

/-! ### Checks -/

/-- No check fails exactly when each condition is false. -/
theorem firstError_eq_none {checks : List Check} :
    firstError checks = none ↔ ∀ c ∈ checks, c.1 () = false := by
  induction checks with
  | nil => simp [firstError]
  | cons c cs ih =>
    obtain ⟨b, e⟩ := c
    cases hb : b () <;> simp [firstError, hb, ih]

/-- A check that fails after checks that pass is the one raised (60_exceptions.md R269). -/
theorem firstError_cons (b : Unit → Bool) (e : ErrorCode) (cs : List Check) :
    firstError ((b, e) :: cs) = if b () = true then some e else firstError cs := rfl

theorem firstError_append (cs ds : List Check) :
    firstError (cs ++ ds) = (firstError cs).or (firstError ds) := by
  induction cs with
  | nil => simp [firstError]
  | cons c cs ih =>
    obtain ⟨b, e⟩ := c
    cases hb : b () <;> simp [firstError, hb, ih]

/-- The code raised is that of a failing check of the list. -/
theorem firstError_mem {checks : List Check} {code : ErrorCode}
    (h : firstError checks = some code) : ∃ c ∈ checks, c.1 () = true ∧ c.2 = code := by
  induction checks with
  | nil => simp [firstError] at h
  | cons c cs ih =>
    obtain ⟨b, e⟩ := c
    cases hb : b ()
    · simp only [firstError, hb, Bool.false_eq_true, if_false] at h
      obtain ⟨c, hc, h⟩ := ih h
      exact ⟨c, List.mem_cons_of_mem _ hc, h⟩
    · simp only [firstError, hb, if_true, Option.some.injEq] at h
      exact ⟨_, List.mem_cons_self, hb, h⟩

/-! ### Check, then commit -/

theorem conclude_of_error {checks : List Check} {code : ErrorCode}
    {commit : State → State} {s : State} (h : firstError checks = some code) :
    conclude checks commit s = .next (raiseError code s) := by simp [conclude, h]

theorem conclude_of_pass {checks : List Check} {commit : State → State} {s : State}
    (h : firstError checks = none) : conclude checks commit s = .next (succeed (commit s)) := by
  simp [conclude, h]

/-- Everything a command can do (00_scope.md R25, 60_exceptions.md R264 to R266): raise its first failing
check, or commit all its writes and succeed. -/
theorem conclude_cases {checks : List Check} {commit : State → State} {s t : State}
    (h : conclude checks commit s = .next t) :
    (∃ code, firstError checks = some code ∧ t = raiseError code s) ∨
      (firstError checks = none ∧ t = succeed (commit s)) := by
  unfold conclude at h
  cases hc : firstError checks with
  | none => rw [hc] at h; cases h; exact .inr ⟨rfl, rfl⟩
  | some code => rw [hc] at h; cases h; exact .inl ⟨code, rfl, rfl⟩

theorem conclude_next (checks : List Check) (commit : State → State) (s : State) :
    ∃ t, conclude checks commit s = .next t := by
  unfold conclude
  cases firstError checks with
  | none => exact ⟨_, rfl⟩
  | some code => exact ⟨_, rfl⟩

/-! ### Each command as its checks and its writes -/

theorem exec_nop (s : State) : exec .nop s = conclude [] (fun s => s) s := rfl

theorem exec_histClear (s : State) :
    exec .histClear s = conclude [] (fun s => { s with hist := [] }) s := rfl

theorem exec_histAccum (s : State) :
    exec .histAccum s =
      conclude (histAccumChecks s) (fun s => { s with hist := accumulated s }) s := rfl

theorem exec_palExtract (m : Int) (s : State) :
    exec (.palExtract m) s = conclude (palExtractChecks m s) (palExtractCommit m) s := rfl

theorem exec_mapNearest (s : State) :
    exec .mapNearest s = conclude (paletteChecks s) nearestCommit s := rfl

theorem exec_mapQuantize (s : State) :
    exec .mapQuantize s = conclude (quantizeChecks s) quantizeCommit s := rfl

theorem exec_sagEncode (s : State) :
    exec .sagEncode s = conclude (encodeChecks s) encodeCommit s := rfl

theorem exec_sagDecode (s : State) :
    exec .sagDecode s = conclude (decodeChecks s) decodeCommit s := rfl

theorem exec_softReset (s : State) : exec .softReset s = .next (softResetState s) := rfl

/-- Everything a command can do: raise an error that changes `STATUS` only, reset the block, or commit its
writes and succeed (60_exceptions.md R264 to R266, 44_control.md R252). -/
theorem exec_cases {i : Instr} {s t : State} (h : exec i s = .next t) :
    (∃ code, code ≠ .noError ∧ t = raiseError code s) ∨
      (i = .softReset ∧ t = softResetState s) ∨
      (i = .nop ∧ t = succeed s) ∨
      (i = .histClear ∧ t = succeed { s with hist := [] }) ∨
      (i = .histAccum ∧ firstError (histAccumChecks s) = none ∧
        t = succeed { s with hist := accumulated s }) ∨
      (∃ m, i = .palExtract m ∧ firstError (palExtractChecks m s) = none ∧
        t = succeed (palExtractCommit m s)) ∨
      (i = .mapNearest ∧ firstError (paletteChecks s) = none ∧ t = succeed (nearestCommit s)) ∨
      (i = .mapQuantize ∧ firstError (quantizeChecks s) = none ∧
        t = succeed (quantizeCommit s)) ∨
      (i = .sagEncode ∧ firstError (encodeChecks s) = none ∧ t = succeed (encodeCommit s)) ∨
      (i = .sagDecode ∧ firstError (decodeChecks s) = none ∧ t = succeed (decodeCommit s)) := by
  have failed : ∀ {checks : List Check} {code : ErrorCode},
      (∀ c ∈ checks, c.2 ≠ .noError) → firstError checks = some code → code ≠ .noError :=
    fun hall he => by
      obtain ⟨c, hc, -, rfl⟩ := firstError_mem he
      exact hall c hc
  cases i with
  | nop =>
    rw [exec_nop] at h
    rcases conclude_cases h with ⟨code, he, rfl⟩ | ⟨-, rfl⟩
    · simp [firstError] at he
    · simp
  | histClear =>
    rw [exec_histClear] at h
    rcases conclude_cases h with ⟨code, he, rfl⟩ | ⟨-, rfl⟩
    · simp [firstError] at he
    · simp
  | histAccum =>
    rw [exec_histAccum] at h
    rcases conclude_cases h with ⟨code, he, rfl⟩ | ⟨hp, rfl⟩
    · exact .inl ⟨code, failed (by simp [histAccumChecks]) he, rfl⟩
    · simp [hp]
  | palExtract m =>
    rw [exec_palExtract] at h
    rcases conclude_cases h with ⟨code, he, rfl⟩ | ⟨hp, rfl⟩
    · exact .inl ⟨code, failed (by simp [palExtractChecks]) he, rfl⟩
    · simp [hp]
  | mapNearest =>
    rw [exec_mapNearest] at h
    rcases conclude_cases h with ⟨code, he, rfl⟩ | ⟨hp, rfl⟩
    · exact .inl ⟨code, failed (by simp [paletteChecks]) he, rfl⟩
    · simp [hp]
  | mapQuantize =>
    rw [exec_mapQuantize] at h
    rcases conclude_cases h with ⟨code, he, rfl⟩ | ⟨hp, rfl⟩
    · exact .inl ⟨code, failed (by simp [quantizeChecks, paletteChecks]) he, rfl⟩
    · simp [hp]
  | sagEncode =>
    rw [exec_sagEncode] at h
    rcases conclude_cases h with ⟨code, he, rfl⟩ | ⟨hp, rfl⟩
    · exact .inl ⟨code, failed (by simp [encodeChecks]) he, rfl⟩
    · simp [hp]
  | sagDecode =>
    rw [exec_sagDecode] at h
    rcases conclude_cases h with ⟨code, he, rfl⟩ | ⟨hp, rfl⟩
    · exact .inl ⟨code, failed (by simp [decodeChecks]) he, rfl⟩
    · simp [hp]
  | softReset =>
    rw [exec_softReset] at h
    cases h
    simp

/-- Every command completes: `exec` answers a next state (60_exceptions.md R263 to R265). -/
theorem exec_next (i : Instr) (s : State) : ∃ t, exec i s = .next t := by
  cases i with
  | nop => rw [exec_nop]; exact conclude_next _ _ _
  | histClear => rw [exec_histClear]; exact conclude_next _ _ _
  | histAccum => rw [exec_histAccum]; exact conclude_next _ _ _
  | palExtract m => rw [exec_palExtract]; exact conclude_next _ _ _
  | mapNearest => rw [exec_mapNearest]; exact conclude_next _ _ _
  | mapQuantize => rw [exec_mapQuantize]; exact conclude_next _ _ _
  | sagEncode => rw [exec_sagEncode]; exact conclude_next _ _ _
  | sagDecode => rw [exec_sagDecode]; exact conclude_next _ _ _
  | softReset => exact ⟨_, rfl⟩

/-! ### Regions -/

theorem Region.inRange_iff (r : Region) : r.inRange = true ↔ inRangeAt r.addr r.len := by
  simp [Region.inRange, inRangeAt]

theorem Region.inRange_false_iff (r : Region) : r.inRange = false ↔ ¬ inRangeAt r.addr r.len := by
  rw [← Region.inRange_iff]; simp

theorem Region.admitted_iff (p : Platform) (r : Region) (k : AccessKind) :
    r.admitted p k = true ↔ admittedAt p r.addr r.len k := by
  simp [Region.admitted, admittedAt]

theorem Region.overlaps_iff (r q : Region) :
    r.overlaps q = true ↔ overlapAt r.addr r.len q.addr q.len := by
  simp [Region.overlaps, overlapAt, and_assoc]

theorem Region.contains_iff (r : Region) (a : Nat) :
    r.contains a = true ↔ r.addr ≤ a ∧ a < r.addr + r.len := by
  simp [Region.contains]

/-! ### Palette RAM -/

theorem PaletteRam.entry_tabulate (f : Nat → Rgb8) {i : Nat} (h : i < 256) :
    (PaletteRam.tabulate f).entry i = f i := by
  simp [PaletteRam.entry, PaletteRam.tabulate, h]

theorem PaletteRam.entry_store (pal : PaletteRam) {i j : Nat} (e : Rgb8) (h : j < 256) :
    (pal.store i e).entry j = if j = i then e else pal.entry j := by
  unfold PaletteRam.entry PaletteRam.store
  by_cases hij : j = i
  · subst hij
    simp [h]
  · have : i ≠ j := fun e => hij e.symm
    simp [h, hij, this]

theorem PaletteRam.entry_replicate (e : Rgb8) {i : Nat} (h : i < 256) :
    PaletteRam.entry (Vector.replicate 256 e) i = e := by
  simp [PaletteRam.entry, h]

/-- Palette RAMs with equal entries are equal. -/
theorem PaletteRam.ext_of_entry {p q : PaletteRam} (h : ∀ i, i < 256 → p.entry i = q.entry i) :
    p = q := by
  refine Vector.ext fun i hi => ?_
  have := h i hi
  simpa [PaletteRam.entry, hi] using this

end Sys2Proof.Machine
end

