-- ==== Sys2Proof/Laws/Histogram.lean ====
section
/-!
SUPPORT. What counting can do (40_palette_extractor.md R145, R146) and what the extraction order is (R151).
-/
namespace Sys2Proof.Machine

/-- Keys strictly ascending and no count 0: the part of `Histogram.wf` that counting keeps whatever the
counts grow to. -/
abbrev Histogram.ordered (h : Histogram) : Prop :=
  List.Pairwise (fun e f : HistEntry => e.colour.before f.colour = true) h ∧ ∀ e ∈ h, 1 ≤ e.count

theorem Histogram.wf.toOrdered {h : Histogram} (hw : Histogram.wf h) : Histogram.ordered h :=
  ⟨hw.1, fun e he => (hw.2 e he).1⟩

/-- The colours of a histogram, `dom H`. -/
abbrev Histogram.dom (h : Histogram) : List Colour := h.map HistEntry.colour

theorem Histogram.countOf_of_not_mem {h : Histogram} {c : Colour} (hc : c ∉ Histogram.dom h) :
    Histogram.countOf h c = 0 := by
  induction h with
  | nil => rfl
  | cons e h ih =>
    simp only [Histogram.dom, List.map_cons, List.mem_cons, not_or] at hc
    have : e.colour ≠ c := fun e' => hc.1 e'.symm
    simp only [Histogram.countOf, this, if_false]
    exact ih hc.2

theorem Histogram.countOf_of_mem {h : Histogram} (ho : Histogram.ordered h) {e : HistEntry}
    (he : e ∈ h) : Histogram.countOf h e.colour = e.count := by
  induction h with
  | nil => cases he
  | cons f h ih =>
    obtain ⟨hf, hr⟩ := List.pairwise_cons.1 ho.1
    rcases List.mem_cons.1 he with rfl | he
    · simp [Histogram.countOf]
    · have hne : f.colour ≠ e.colour := fun h' => by
        have := hf e he
        rw [h', Colour.before_irrefl] at this
        cases this
      simp only [Histogram.countOf, hne, if_false]
      exact ih ⟨hr, fun g hg => ho.2 g (List.mem_cons_of_mem _ hg)⟩ he

theorem Histogram.mem_dom_iff {h : Histogram} (ho : Histogram.ordered h) {c : Colour} :
    c ∈ Histogram.dom h ↔ 1 ≤ Histogram.countOf h c := by
  constructor
  · intro hc
    obtain ⟨e, he, rfl⟩ := List.mem_map.1 hc
    rw [Histogram.countOf_of_mem ho he]
    exact ho.2 e he
  · intro h1
    by_contra hc
    rw [Histogram.countOf_of_not_mem hc] at h1
    omega

theorem Histogram.dom_nodup {h : Histogram} (ho : Histogram.ordered h) :
    (Histogram.dom h).Nodup := by
  refine List.pairwise_map.2 (ho.1.imp fun hb he => ?_)
  rw [he, Colour.before_irrefl] at hb
  cases hb

/-! ### Counting one colour -/

theorem Histogram.mem_dom_addOne (h : Histogram) (c d : Colour) :
    d ∈ Histogram.dom (Histogram.addOne h c) ↔ d = c ∨ d ∈ Histogram.dom h := by
  induction h with
  | nil => simp [Histogram.addOne]
  | cons e h ih =>
    simp only [Histogram.addOne]
    split
    · rename_i he
      simp [← he]
    · split
      · simp
      · simp only [Histogram.dom, List.map_cons, List.mem_cons] at ih ⊢
        rw [ih]
        tauto

theorem Histogram.addOne_ordered {h : Histogram} (ho : Histogram.ordered h) (c : Colour) :
    Histogram.ordered (Histogram.addOne h c) := by
  induction h with
  | nil => simp [Histogram.addOne, Histogram.ordered]
  | cons e h ih =>
    obtain ⟨he, hr⟩ := List.pairwise_cons.1 ho.1
    have ho' : Histogram.ordered h := ⟨hr, fun g hg => ho.2 g (List.mem_cons_of_mem _ hg)⟩
    simp only [Histogram.addOne]
    split
    · rename_i hc
      refine ⟨List.pairwise_cons.2 ⟨fun g hg => hc ▸ he g hg, hr⟩, fun g hg => ?_⟩
      rcases List.mem_cons.1 hg with rfl | hg
      · simp
      · exact ho'.2 g hg
    · rename_i hc
      split
      · rename_i hb
        refine ⟨List.pairwise_cons.2 ⟨fun g hg => ?_, ho.1⟩, fun g hg => ?_⟩
        · rcases List.mem_cons.1 hg with rfl | hg
          · exact hb
          · exact Colour.before_trans hb (he g hg)
        · rcases List.mem_cons.1 hg with rfl | hg
          · simp
          · exact ho.2 g hg
      · rename_i hb
        have hec : e.colour.before c = true := by
          rcases Colour.before_or_eq e.colour c with h1 | h1 | h1
          · exact h1
          · exact absurd h1 hc
          · exact absurd h1 hb
        refine ⟨List.pairwise_cons.2 ⟨fun g hg => ?_, (ih ho').1⟩, fun g hg => ?_⟩
        · have : g.colour ∈ Histogram.dom (Histogram.addOne h c) := List.mem_map_of_mem hg
          rcases (Histogram.mem_dom_addOne h c g.colour).1 this with h1 | h1
          · rw [h1]; exact hec
          · obtain ⟨f, hf, hfe⟩ := List.mem_map.1 h1
            rw [← hfe]; exact he f hf
        · rcases List.mem_cons.1 hg with rfl | hg
          · exact ho.2 _ (by simp)
          · exact (ih ho').2 g hg

/-- Counting a colour adds 1 to its count and changes no other (40_palette_extractor.md R145). -/
theorem Histogram.countOf_addOne {h : Histogram} (ho : Histogram.ordered h) (c d : Colour) :
    Histogram.countOf (Histogram.addOne h c) d =
      Histogram.countOf h d + if d = c then 1 else 0 := by
  induction h with
  | nil =>
    by_cases hd : d = c
    · subst hd; simp [Histogram.addOne, Histogram.countOf]
    · simp [Histogram.addOne, Histogram.countOf, hd, Ne.symm hd]
  | cons e h ih =>
    obtain ⟨he, hr⟩ := List.pairwise_cons.1 ho.1
    have ho' : Histogram.ordered h := ⟨hr, fun g hg => ho.2 g (List.mem_cons_of_mem _ hg)⟩
    simp only [Histogram.addOne]
    split
    · rename_i hc
      by_cases hd : d = c
      · subst hd; simp [Histogram.countOf, hc]
      · simp [Histogram.countOf, hc, hd, Ne.symm hd]
    · rename_i hc
      split
      · rename_i hb
        by_cases hd : d = c
        · subst hd
          have hnot : d ∉ Histogram.dom (e :: h) := fun hm => by
            simp only [Histogram.dom, List.map_cons, List.mem_cons] at hm
            rcases hm with h1 | h1
            · exact hc h1.symm
            · obtain ⟨g, hg, hge⟩ := List.mem_map.1 h1
              have := Colour.before_trans hb (he g hg)
              rw [hge, Colour.before_irrefl] at this
              cases this
          rw [Histogram.countOf_of_not_mem hnot]
          simp [Histogram.countOf]
        · simp [Histogram.countOf, hd, Ne.symm hd]
      · by_cases hed : e.colour = d
        · have : d ≠ c := fun h' => hc (hed.trans h')
          simp [Histogram.countOf, hed, this]
        · simp [Histogram.countOf, hed, ih ho']

/-! ### Counting a list of colours -/

theorem Histogram.addAll_ordered {h : Histogram} (ho : Histogram.ordered h) (cs : List Colour) :
    Histogram.ordered (Histogram.addAll h cs) := by
  induction cs generalizing h with
  | nil => exact ho
  | cons c cs ih => exact ih (Histogram.addOne_ordered ho c)

/-- Counting a list adds to each colour's count how often it occurs in the list
(40_palette_extractor.md R145, R146). -/
theorem Histogram.countOf_addAll {h : Histogram} (ho : Histogram.ordered h) (cs : List Colour)
    (d : Colour) :
    Histogram.countOf (Histogram.addAll h cs) d = Histogram.countOf h d + cs.count d := by
  induction cs generalizing h with
  | nil => simp [Histogram.addAll]
  | cons c cs ih =>
    have := ih (Histogram.addOne_ordered ho c)
    simp only [Histogram.addAll, List.foldl_cons] at this ⊢
    rw [this, Histogram.countOf_addOne ho, List.count_cons]
    by_cases hd : d = c
    · subst hd; simp; omega
    · have : (c == d) = false := by simpa using Ne.symm hd
      simp [hd, this]

theorem Histogram.mem_dom_addAll (h : Histogram) (cs : List Colour) (d : Colour) :
    d ∈ Histogram.dom (Histogram.addAll h cs) ↔ d ∈ cs ∨ d ∈ Histogram.dom h := by
  induction cs generalizing h with
  | nil => simp [Histogram.addAll]
  | cons c cs ih =>
    have := ih (Histogram.addOne h c)
    simp only [Histogram.addAll, List.foldl_cons, List.mem_cons] at this ⊢
    rw [this, Histogram.mem_dom_addOne]
    tauto

theorem Histogram.addAll_append (h : Histogram) (cs ds : List Colour) :
    Histogram.addAll h (cs ++ ds) = Histogram.addAll (Histogram.addAll h cs) ds := by
  simp [Histogram.addAll]

/-- The number of distinct colours after counting: those of the histogram and of the list together. -/
theorem Histogram.length_addAll {h : Histogram} (ho : Histogram.ordered h) (cs : List Colour) :
    (Histogram.addAll h cs).length = (Histogram.dom h ++ cs).dedup.length := by
  have hp : (Histogram.dom (Histogram.addAll h cs)).Perm (Histogram.dom h ++ cs).dedup := by
    refine (List.perm_ext_iff_of_nodup (Histogram.dom_nodup (Histogram.addAll_ordered ho cs))
      (List.nodup_dedup _)).2 fun d => ?_
    rw [Histogram.mem_dom_addAll, List.mem_dedup, List.mem_append]
    exact or_comm
  rw [← hp.length_eq, List.length_map]

/-- Some count is above `2^48 - 1` exactly when some entry's is. -/
theorem Histogram.overflows_false_iff (h : Histogram) :
    Histogram.overflows h = false ↔ ∀ e ∈ h, e.count ≤ Config.countMax := by
  simp [Histogram.overflows]

/-- Ordered histograms with equal counts are equal (10_state.md R60). -/
theorem Histogram.ext_of_countOf {h g : Histogram} (hh : Histogram.ordered h)
    (hg : Histogram.ordered g) (he : ∀ c, Histogram.countOf h c = Histogram.countOf g c) :
    h = g := by
  have sub : ∀ {h g : Histogram}, Histogram.ordered h → Histogram.ordered g →
      (∀ c, Histogram.countOf h c = Histogram.countOf g c) → ∀ e ∈ h, e ∈ g := by
    intro h g hh hg he e hm
    have h1 := Histogram.countOf_of_mem hh hm
    have h2 : e.colour ∈ Histogram.dom g := by
      rw [Histogram.mem_dom_iff hg, ← he, h1]; exact hh.2 e hm
    obtain ⟨f, hf, hfe⟩ := List.mem_map.1 h2
    have h3 := Histogram.countOf_of_mem hg hf
    rw [hfe, ← he, h1] at h3
    have : e = f := by
      cases e; cases f
      simp only at hfe h3
      simp [hfe, h3]
    rwa [this]
  have nodup : ∀ {h : Histogram}, Histogram.ordered h → h.Nodup := fun ho =>
    List.Nodup.of_map HistEntry.colour (Histogram.dom_nodup ho)
  have hp : h.Perm g := (List.perm_ext_iff_of_nodup (nodup hh) (nodup hg)).2 fun e =>
    ⟨sub hh hg he e, sub hg hh (fun c => (he c).symm) e⟩
  refine hp.eq_of_pairwise ?_ hh.1 hg.1
  intro a b _ _ hab hba
  rw [Colour.before_asymm hab] at hba
  cases hba

/-! ### The extraction order -/

theorem extractsBefore_trans {e f g : HistEntry} (h : extractsBefore e f = true)
    (h' : extractsBefore f g = true) : extractsBefore e g = true := by
  simp only [extractsBefore, Bool.or_eq_true, Bool.and_eq_true, decide_eq_true_eq,
    beq_iff_eq] at *
  rcases h with h | ⟨h1, h2⟩ <;> rcases h' with h' | ⟨h3, h4⟩
  · exact .inl (by omega)
  · exact .inl (by omega)
  · exact .inl (by omega)
  · exact .inr ⟨by omega, Colour.before_trans h2 h4⟩

theorem extractsBefore_or {e f : HistEntry} (h : e.colour ≠ f.colour) :
    extractsBefore e f = true ∨ extractsBefore f e = true := by
  simp only [extractsBefore, Bool.or_eq_true, Bool.and_eq_true, decide_eq_true_eq, beq_iff_eq]
  rcases Nat.lt_trichotomy e.count f.count with h1 | h1 | h1
  · exact .inr (.inl h1)
  · rcases Colour.before_or_eq e.colour f.colour with h2 | h2 | h2
    · exact .inl (.inr ⟨h1, h2⟩)
    · exact absurd h2 h
    · exact .inr (.inr ⟨h1.symm, h2⟩)
  · exact .inl (.inl h1)

theorem Histogram.extractionOrder_perm (h : Histogram) : (Histogram.extractionOrder h).Perm h :=
  List.perm_insertionSort _ h

theorem Histogram.extractionOrder_length (h : Histogram) :
    (Histogram.extractionOrder h).length = h.length :=
  (Histogram.extractionOrder_perm h).length_eq

theorem orderedInsert_extracts {e : HistEntry} {l : List HistEntry}
    (hd : ∀ f ∈ l, e.colour ≠ f.colour)
    (hl : List.Pairwise (fun f g => extractsBefore f g = true) l) :
    List.Pairwise (fun f g => extractsBefore f g = true)
      (l.orderedInsert (fun f g => extractsBefore f g = true) e) := by
  induction l with
  | nil => simp
  | cons f l ih =>
    obtain ⟨hf, hr⟩ := List.pairwise_cons.1 hl
    rw [List.orderedInsert_cons]
    split
    · rename_i hef
      refine List.pairwise_cons.2 ⟨fun g hg => ?_, hl⟩
      rcases List.mem_cons.1 hg with rfl | hg
      · exact hef
      · exact extractsBefore_trans hef (hf g hg)
    · rename_i hef
      refine List.pairwise_cons.2 ⟨fun g hg => ?_, ih (fun g hg => hd g (by simp [hg])) hr⟩
      rcases (List.mem_orderedInsert _).1 hg with rfl | hg
      · exact (extractsBefore_or (hd f (by simp))).resolve_left hef
      · exact hf g hg

/-- `L` is in the order of 40_palette_extractor.md R151: every earlier colour extracts before every later
one. -/
theorem Histogram.extractionOrder_sorted {h : Histogram} (ho : Histogram.ordered h) :
    List.Pairwise (fun e f => extractsBefore e f = true) (Histogram.extractionOrder h) := by
  have hd : List.Pairwise (fun e f : HistEntry => e.colour ≠ f.colour) h :=
    List.pairwise_map.1 (Histogram.dom_nodup ho)
  clear ho
  induction h with
  | nil => exact List.Pairwise.nil
  | cons e h ih =>
    obtain ⟨he, hr⟩ := List.pairwise_cons.1 hd
    refine orderedInsert_extracts (fun f hf => he f ?_) (ih hr)
    exact (Histogram.extractionOrder_perm h).mem_iff.1 hf

end Sys2Proof.Machine
end

