-- ==== Sys2Proof/Laws/Memory.lean ====
section
/-!
SUPPORT. What the memory operations can do: read after write, and that every write keeps the canonical form.
-/
namespace Sys2Proof.Machine

/-! ### Reading lists of cells -/

theorem Memory.read_of_not_listed {m : Memory} {a : Nat} (h : ∀ c ∈ m, c.1 ≠ a) :
    Memory.read m a = Memory.unlisted := by
  induction m with
  | nil => rfl
  | cons c m ih =>
    have hc : c.1 ≠ a := h c (by simp)
    simp only [Memory.read, hc, if_false]
    exact ih fun d hd => h d (by simp [hd])

theorem Memory.read_append_of_not_right {m n : Memory} {a : Nat} (h : ∀ c ∈ n, c.1 ≠ a) :
    Memory.read (m ++ n) a = Memory.read m a := by
  induction m with
  | nil => exact Memory.read_of_not_listed h
  | cons c m ih => simp only [List.cons_append, Memory.read, ih]

theorem Memory.read_append_of_not_left {m n : Memory} {a : Nat} (h : ∀ c ∈ m, c.1 ≠ a) :
    Memory.read (m ++ n) a = Memory.read n a := by
  induction m with
  | nil => rfl
  | cons c m ih =>
    have hc : c.1 ≠ a := h c (by simp)
    simp only [List.cons_append, Memory.read, hc, if_false]
    exact ih fun d hd => h d (by simp [hd])

theorem Memory.read_filter {m : Memory} {a : Nat} {p : Host.Cell → Bool}
    (h : ∀ b, p (a, b) = true) : Memory.read (m.filter p) a = Memory.read m a := by
  induction m with
  | nil => rfl
  | cons c m ih =>
    obtain ⟨k, b⟩ := c
    by_cases hk : k = a
    · subst hk; simp [h, Memory.read]
    · by_cases hp : p (k, b) = true <;> simp [hp, Memory.read, hk, ih]

/-- In a list with rising addresses, an entry is what its address reads as. -/
theorem Memory.read_of_mem {m : Memory}
    (h : List.Pairwise (fun c d : Host.Cell => c.1 < d.1) m) {c : Host.Cell} (hc : c ∈ m) :
    Memory.read m c.1 = c.2 := by
  induction m with
  | nil => cases hc
  | cons d m ih =>
    obtain ⟨hd, hm⟩ := List.pairwise_cons.1 h
    rcases List.mem_cons.1 hc with rfl | hc
    · simp [Memory.read]
    · have : d.1 ≠ c.1 := Nat.ne_of_lt (hd c hc)
      simp [Memory.read, this, ih hm hc]

/-! ### The cells of a block -/

theorem Memory.cellsFrom_bounds {addr : Nat} {bs : List Byte} {c : Host.Cell}
    (h : c ∈ Memory.cellsFrom addr bs) :
    addr ≤ c.1 ∧ c.1 < addr + bs.length ∧ c.2 ≠ Memory.unlisted := by
  induction bs generalizing addr with
  | nil => simp [Memory.cellsFrom] at h
  | cons b bs ih =>
    simp only [Memory.cellsFrom] at h
    simp only [List.length_cons]
    split at h
    · obtain ⟨h1, h2, h3⟩ := ih h
      exact ⟨by omega, by omega, h3⟩
    · rename_i hb
      rcases List.mem_cons.1 h with rfl | h
      · exact ⟨le_refl _, by simp, hb⟩
      · obtain ⟨h1, h2, h3⟩ := ih h
        exact ⟨by omega, by omega, h3⟩

theorem Memory.cellsFrom_rising (addr : Nat) (bs : List Byte) :
    List.Pairwise (fun c d : Host.Cell => c.1 < d.1) (Memory.cellsFrom addr bs) := by
  induction bs generalizing addr with
  | nil => exact List.Pairwise.nil
  | cons b bs ih =>
    simp only [Memory.cellsFrom]
    split
    · exact ih _
    · refine List.pairwise_cons.2 ⟨fun c hc => ?_, ih _⟩
      have := (Memory.cellsFrom_bounds hc).1
      simp only
      omega

theorem Memory.read_cellsFrom {addr j : Nat} {bs : List Byte} (h : j < bs.length) :
    Memory.read (Memory.cellsFrom addr bs) (addr + j) = bs[j] := by
  induction bs generalizing addr j with
  | nil => simp at h
  | cons b bs ih =>
    have later : ∀ c ∈ Memory.cellsFrom (addr + 1) bs, c.1 ≠ addr := fun c hc => by
      have := (Memory.cellsFrom_bounds hc).1; omega
    cases j with
    | zero =>
      simp only [Memory.cellsFrom, Nat.add_zero, List.getElem_cons_zero]
      split
      · rename_i hb; rw [Memory.read_of_not_listed later, hb]
      · simp [Memory.read]
    | succ j =>
      have hj : j < bs.length := by simpa using h
      have e : addr + (j + 1) = addr + 1 + j := by omega
      have hne : addr ≠ addr + 1 + j := by omega
      simp only [Memory.cellsFrom, List.getElem_cons_succ, e]
      split
      · exact ih hj
      · simp only [Memory.read, hne, if_false]; exact ih hj

/-! ### Writing a block -/

/-- A byte inside the block written reads as the byte written (00_scope.md R20). -/
theorem Memory.read_writeBytes_inside {m : Memory} {addr j : Nat} {bs : List Byte}
    (h : j < bs.length) : (m.writeBytes addr bs).read (addr + j) = bs[j] := by
  unfold Memory.writeBytes
  rw [Memory.read_append_of_not_left, Memory.read_append_of_not_right, Memory.read_cellsFrom h]
  · intro c hc
    have := (List.mem_filter.1 hc).2
    simp only [decide_eq_true_eq] at this
    omega
  · intro c hc
    have := (List.mem_filter.1 hc).2
    simp only [decide_eq_true_eq] at this
    omega

/-- Every byte outside the block written reads as before. -/
theorem Memory.read_writeBytes_outside {m : Memory} {addr x : Nat} {bs : List Byte}
    (h : x < addr ∨ addr + bs.length ≤ x) : (m.writeBytes addr bs).read x = m.read x := by
  unfold Memory.writeBytes
  have hcells : ∀ c ∈ Memory.cellsFrom addr bs, c.1 ≠ x := fun c hc => by
    have := Memory.cellsFrom_bounds hc; omega
  rcases h with h | h
  · rw [Memory.read_append_of_not_right, Memory.read_filter (by simp [h])]
    intro c hc
    rcases List.mem_append.1 hc with hc | hc
    · exact hcells c hc
    · have := (List.mem_filter.1 hc).2
      simp only [decide_eq_true_eq] at this
      omega
  · rw [Memory.read_append_of_not_left, Memory.read_append_of_not_left hcells,
      Memory.read_filter (by simp [h])]
    intro c hc
    have := (List.mem_filter.1 hc).2
    simp only [decide_eq_true_eq] at this
    omega

/-- Both laws of a block write at once. -/
theorem Memory.read_writeBytes (m : Memory) (addr x : Nat) (bs : List Byte) :
    (m.writeBytes addr bs).read x =
      if h : addr ≤ x ∧ x < addr + bs.length then bs[x - addr]'(by omega) else m.read x := by
  split
  · rename_i h
    have hj : x - addr < bs.length := by omega
    have := Memory.read_writeBytes_inside (m := m) (addr := addr) hj
    rwa [show addr + (x - addr) = x by omega] at this
  · rename_i h
    exact Memory.read_writeBytes_outside (by omega)

/-- A block write inside the address space keeps the canonical form. -/
theorem Memory.writeBytes_wf {m : Memory} {addr : Nat} {bs : List Byte} (hm : Memory.wf m)
    (h : addr + bs.length ≤ Config.addrSpace) : Memory.wf (m.writeBytes addr bs) := by
  obtain ⟨hp, hc⟩ := hm
  have low : ∀ c ∈ m.filter (fun c => decide (c.1 < addr)), c.1 < addr := fun c hc => by
    simpa using (List.mem_filter.1 hc).2
  have high : ∀ c ∈ m.filter (fun c => decide (addr + bs.length ≤ c.1)),
      addr + bs.length ≤ c.1 := fun c hc => by simpa using (List.mem_filter.1 hc).2
  refine ⟨?_, fun c hc' => ?_⟩
  · refine List.pairwise_append.2 ⟨hp.filter _, List.pairwise_append.2
      ⟨Memory.cellsFrom_rising _ _, hp.filter _, fun c hc d hd => ?_⟩, fun c hc d hd => ?_⟩
    · have := Memory.cellsFrom_bounds hc; have := high d hd; omega
    · have h1 := low c hc
      rcases List.mem_append.1 hd with hd | hd
      · have := Memory.cellsFrom_bounds hd; omega
      · have := high d hd; omega
  · rcases List.mem_append.1 hc' with h1 | h1
    · exact hc c (List.mem_filter.1 h1).1
    · rcases List.mem_append.1 h1 with h1 | h1
      · have := Memory.cellsFrom_bounds h1
        exact ⟨by omega, this.2.2⟩
      · exact hc c (List.mem_filter.1 h1).1

/-! ### Writing one byte -/

/-- A byte written reads back, and no other byte changes. -/
theorem Memory.read_write (m : Memory) (addr x : Nat) (b : Byte) :
    (m.write addr b).read x = if x = addr then b else m.read x := by
  unfold Memory.write
  by_cases h : x = addr
  · subst h
    have := Memory.read_writeBytes_inside (m := m) (addr := x) (j := 0) (bs := [b]) (by simp)
    simpa using this
  · rw [if_neg h]
    refine Memory.read_writeBytes_outside ?_
    simp only [List.length_singleton]
    omega

/-- Writing one byte of the address space keeps the canonical form. -/
theorem Memory.write_wf {m : Memory} {addr : Nat} {b : Byte} (hm : Memory.wf m)
    (h : addr < Config.addrSpace) : Memory.wf (m.write addr b) :=
  Memory.writeBytes_wf hm (by simpa using h)

/-! ### Equal readings, equal memories -/

/-- In canonical form, memories that read alike everywhere are equal. -/
theorem Memory.ext_of_read {m n : Memory} (hm : Memory.wf m) (hn : Memory.wf n)
    (h : ∀ a, m.read a = n.read a) : m = n := by
  have sub : ∀ {m n : Memory}, Memory.wf m → Memory.wf n → (∀ a, m.read a = n.read a) →
      ∀ c ∈ m, c ∈ n := by
    intro m n hm hn h c hc
    have hr : Memory.read n c.1 = c.2 := by rw [← h, Memory.read_of_mem hm.1 hc]
    by_contra hcn
    by_cases hk : ∃ d ∈ n, d.1 = c.1
    · obtain ⟨d, hd, he⟩ := hk
      have hd2 := Memory.read_of_mem hn.1 hd
      rw [he, hr] at hd2
      exact hcn (by rwa [show c = d from Prod.ext he.symm hd2])
    · have hnone : Memory.read n c.1 = Memory.unlisted :=
        Memory.read_of_not_listed fun d hd he => hk ⟨d, hd, he⟩
      exact (hm.2 c hc).2 (by rw [← hr, hnone])
  have nodup : ∀ {m : Memory}, Memory.wf m → m.Nodup := fun hm =>
    hm.1.imp fun hlt he => by rw [he] at hlt; exact Nat.lt_irrefl _ hlt
  have hperm : List.Perm m n :=
    (List.perm_ext_iff_of_nodup (nodup hm) (nodup hn)).2 fun c =>
      ⟨sub hm hn h c, sub hn hm (fun a => (h a).symm) c⟩
  refine hperm.eq_of_pairwise ?_ hm.1 hn.1
  intro a b _ _ hab hba
  exact absurd (Nat.lt_trans hab hba) (Nat.lt_irrefl _)

/-! ### Reading a block -/

@[simp] theorem Memory.readBytes_length (m : Memory) (addr n : Nat) :
    (m.readBytes addr n).length = n := by simp [Memory.readBytes]

/-- Byte `j` of a block is the byte at its address (00_scope.md R20). -/
theorem Memory.readBytes_getElem (m : Memory) (addr n j : Nat) (h : j < (m.readBytes addr n).length) :
    (m.readBytes addr n)[j] = m.read (addr + j) := by simp [Memory.readBytes]

end Sys2Proof.Machine
end

