-- ==== Sys2Proof/Laws/Nearest.lean ====
section
/-!
SUPPORT. What the search can do (41_nearest_quantizer.md R171): it returns the least index of minimum
distance, with that distance.
-/
namespace Sys2Proof.Machine

/-- The loop invariant of the search: the running minimum is the least index of minimum distance among the
entries seen. -/
theorem nearestScan_correct (pal : PaletteRam) (q : Rgb8) (left i : Nat) (best : Nat × Nat)
    (hd : best.2 = dist (pal.entry best.1) q) (h : nearestAt pal q i best.1) :
    nearestAt pal q (i + left) (nearestScan pal q left i best).1 ∧
      (nearestScan pal q left i best).2 =
        dist (pal.entry (nearestScan pal q left i best).1) q := by
  induction left generalizing i best with
  | zero => exact ⟨h, hd⟩
  | succ left ih =>
    obtain ⟨hlt, hmin, hleast⟩ := h
    rw [nearestScan, show i + (left + 1) = i + 1 + left by omega]
    split
    · rename_i hless
      refine ih (i + 1) _ rfl ⟨by simp, fun j hj => ?_, fun j hj => ?_⟩
      · by_cases hji : j = i
        · rw [hji]
        · have := hmin j (by omega); simp only; omega
      · have := hmin j hj; simp only; omega
    · rename_i hless
      refine ih (i + 1) _ hd ⟨by omega, fun j hj => ?_, hleast⟩
      by_cases hji : j = i
      · rw [hji]; omega
      · exact hmin j (by omega)

/-- The search returns the least index of minimum distance, with its distance
(41_nearest_quantizer.md R171). -/
theorem nearestIndex_correct (pal : PaletteRam) (q : Rgb8) {n : Nat} (hn : 0 < n) :
    nearestAt pal q n (nearestIndex pal q n).1 ∧
      (nearestIndex pal q n).2 = dist (pal.entry (nearestIndex pal q n).1) q := by
  have := nearestScan_correct pal q (n - 1) 1 (0, dist (pal.entry 0) q) rfl
    ⟨by simp, fun j hj => by rw [show j = 0 by omega], fun j hj => absurd hj (by simp)⟩
  rwa [show 1 + (n - 1) = n by omega] at this

/-- There is one such index. -/
theorem nearestAt_unique {pal : PaletteRam} {q : Rgb8} {n i j : Nat} (hi : nearestAt pal q n i)
    (hj : nearestAt pal q n j) : i = j := by
  rcases Nat.lt_trichotomy i j with h | h | h
  · have h1 := hj.2.2 i h; have h2 := hi.2.1 j hj.1; omega
  · exact h
  · have h1 := hi.2.2 j h; have h2 := hj.2.1 i hi.1; omega

@[simp] theorem quantizeOutput_length (s : State) :
    (quantizeOutput s).length = pixCountNat s := by
  simp [quantizeOutput, pixelArray]

/-- Output byte `k` of `QUANTIZE` is the index byte of pixel `k` (41_nearest_quantizer.md R177). -/
theorem quantizeOutput_getElem (s : State) (k : Nat) (h : k < (quantizeOutput s).length) :
    (quantizeOutput s)[k] =
      quantizeColour s (pixelAt s.mem (s.operands.srcAddr.toNat + 8 * k)) := by
  simp [quantizeOutput, pixelArray]

end Sys2Proof.Machine
end

