-- ==== Sys2Proof/Laws/Words.lean ====
section
/-!
SUPPORT. The fields of command words, and what the decoder can answer (30_encoding.md R110, R117).
-/
namespace Sys2Proof

@[simp] theorem opcodeField_commandWord (imm : Half) (r o : Byte) :
    opcodeField (commandWord imm r o) = o := by
  apply BitVec.eq_of_getLsbD_eq
  intro i hi
  simp only [opcodeField, commandWord, BitVec.getLsbD_extractLsb', BitVec.getLsbD_append, hi,
    Nat.zero_add, decide_true, Bool.true_and, if_true]

@[simp] theorem reservedField_commandWord (imm : Half) (r o : Byte) :
    reservedField (commandWord imm r o) = r := by
  apply BitVec.eq_of_getLsbD_eq
  intro i hi
  have h1 : ¬ (8 + i < 8) := by omega
  have h2 : 8 + i - 8 = i := by omega
  simp only [reservedField, commandWord, BitVec.getLsbD_extractLsb', BitVec.getLsbD_append, hi, h1,
    h2, decide_true, Bool.true_and, if_true, if_false]

@[simp] theorem immField_commandWord (imm : Half) (r o : Byte) :
    immField (commandWord imm r o) = imm := by
  apply BitVec.eq_of_getLsbD_eq
  intro i hi
  have h1 : ¬ (16 + i < 8) := by omega
  have h2 : ¬ (16 + i - 8 < 8) := by omega
  have h3 : 16 + i - 8 - 8 = i := by omega
  simp only [immField, commandWord, BitVec.getLsbD_extractLsb', BitVec.getLsbD_append, hi, h1, h2,
    h3, decide_true, Bool.true_and, if_false]

/-- A word is its three fields (30_encoding.md R110). -/
theorem commandWord_fields (w : Word) :
    commandWord (immField w) (reservedField w) (opcodeField w) = w := by
  apply BitVec.eq_of_getLsbD_eq
  intro i hi
  simp only [immField, reservedField, opcodeField, commandWord, BitVec.getLsbD_extractLsb',
    BitVec.getLsbD_append]
  by_cases h1 : i < 8
  · simp [h1]
  · by_cases h2 : i - 8 < 8
    · simp only [h1, h2, if_true, if_false, decide_true, Bool.true_and]
      congr 1; omega
    · have h3 : i - 8 - 8 < 16 := by omega
      simp only [h1, h2, h3, if_false, decide_true, Bool.true_and]
      congr 1; omega

theorem commandWord_inj {i j : Half} {r q o p : Byte} :
    commandWord i r o = commandWord j q p ↔ i = j ∧ r = q ∧ o = p := by
  constructor
  · intro h
    have h1 := congrArg immField h
    have h2 := congrArg reservedField h
    have h3 := congrArg opcodeField h
    simp only [immField_commandWord, reservedField_commandWord, opcodeField_commandWord] at h1 h2 h3
    exact ⟨h1, h2, h3⟩
  · rintro ⟨rfl, rfl, rfl⟩; rfl

/-- The upper 24 bits are 0 exactly when the immediate and the reserved field are. -/
theorem upper_bits_zero_iff (w : Word) :
    w.extractLsb' 8 24 = 0#24 ↔ immField w = 0 ∧ reservedField w = 0 := by
  constructor
  · intro h
    constructor <;> apply BitVec.eq_of_getLsbD_eq <;> intro i hi
    · have h1 := congrArg (fun x => x.getLsbD (i + 8)) h
      simp only [BitVec.getLsbD_extractLsb', show i + 8 < 24 by omega, decide_true, Bool.true_and,
        show 8 + (i + 8) = 16 + i by omega] at h1
      simp only [immField, BitVec.getLsbD_extractLsb', hi, decide_true, Bool.true_and, h1]
      simp
    · have h1 := congrArg (fun x => x.getLsbD i) h
      simp only [BitVec.getLsbD_extractLsb', show i < 24 by omega, decide_true,
        Bool.true_and] at h1
      simp only [reservedField, BitVec.getLsbD_extractLsb', hi, decide_true, Bool.true_and, h1]
      simp
  · rintro ⟨h1, h2⟩
    have h3 := commandWord_fields w
    rw [h1, h2] at h3
    rw [← h3]
    apply BitVec.eq_of_getLsbD_eq
    intro i hi
    have h4 : ¬ (8 + i < 8) := by omega
    simp only [commandWord, BitVec.getLsbD_extractLsb', BitVec.getLsbD_append, h4, if_false]
    split <;> simp

/-- The commands without an immediate, by opcode (30_encoding.md R112). -/
theorem plainCommand_cases {o : Byte} {i : Instr} (h : plainCommand o = some i) :
    (o = 0x00 ∧ i = .nop) ∨ (o = 0x01 ∧ i = .histClear) ∨ (o = 0x02 ∧ i = .histAccum) ∨
      (o = 0x04 ∧ i = .mapNearest) ∨ (o = 0x05 ∧ i = .mapQuantize) ∨ (o = 0x06 ∧ i = .sagEncode) ∨
      (o = 0x07 ∧ i = .sagDecode) ∨ (o = 0x0F ∧ i = .softReset) := by
  unfold plainCommand at h
  split at h <;> simp_all [BitVec.toNat_eq]

/-- Everything the decoder can accept (30_encoding.md R117). -/
theorem decode_cases {w : Word} {i : Instr} (h : decode w = .ok i) :
    reservedField w = 0 ∧
      ((opcodeField w = 0x03 ∧ i = .palExtract (maxColorsOf (immField w))) ∨
        (opcodeField w ≠ 0x03 ∧ immField w = 0 ∧ plainCommand (opcodeField w) = some i)) := by
  unfold decode at h
  split at h
  · cases h
  · rename_i hr
    refine ⟨not_not.1 hr, ?_⟩
    split at h
    · rename_i ho
      cases h
      exact .inl ⟨ho, rfl⟩
    · rename_i ho
      split at h
      · cases h
      · rename_i j hj
        split at h
        · rename_i him
          cases h
          exact .inr ⟨ho, him, hj⟩
        · cases h

/-! ### Matching rows of the opcode map -/

/-- A row that fixes every bit matches its own word only. -/
theorem matches_exact (n : String) (p w : Word) :
    rowMatches ⟨n, p, 0xFFFFFFFF#32⟩ w = decide (w = p) := by
  have h : w &&& 0xFFFFFFFF#32 = w := by
    rw [show (0xFFFFFFFF#32) = BitVec.allOnes 32 by decide, BitVec.and_allOnes]
  simp only [rowMatches, h]
  rfl

/-- The row of `pal.extract` fixes the opcode and the reserved field. -/
theorem matches_extract (n : String) (w : Word) :
    rowMatches ⟨n, 0x00000003#32, 0x0000FFFF#32⟩ w =
      decide (reservedField w = 0 ∧ opcodeField w = 0x03) := by
  have hm : ∀ i < 32, (0x0000FFFF#32).getLsbD i = decide (i < 16) := by decide
  have h : w &&& 0x0000FFFF#32 = commandWord 0 (reservedField w) (opcodeField w) := by
    conv_lhs => rw [← commandWord_fields w]
    apply BitVec.eq_of_getLsbD_eq
    intro i hi
    simp only [commandWord, BitVec.getLsbD_and, BitVec.getLsbD_append, hm i hi]
    by_cases h1 : i < 8
    · simp [h1, show i < 16 by omega]
    · by_cases h2 : i - 8 < 8
      · simp [h1, h2, show i < 16 by omega]
      · simp [h1, h2, show ¬ i < 16 by omega]
  have h3 : (0x00000003#32) = commandWord 0 0 0x03 := by decide
  simp only [rowMatches, h, h3]
  rw [Bool.eq_iff_iff, beq_iff_eq, commandWord_inj, decide_eq_true_eq]
  simp

end Sys2Proof
end

