-- ==== Sys2Proof/Laws/PerInstr.lean ====
section
/-!
SUPPORT. One family of statements per instruction: the word of a command matches the row of its own name in
the opcode map, and no other row (30_encoding.md R112).
-/
namespace Sys2Proof.Laws.RowOfEncoding

/-- The word of `i` matches exactly one row of the opcode map, the row named like `i`. -/
def Statement (i : Instr) : Prop :=
  (opcodeMap.filter fun r => rowMatches r (encode i)).map OpcodeRow.mnemonic = [mnemonic i]

theorem nop : Statement .nop := by unfold Statement; decide

theorem histClear : Statement .histClear := by unfold Statement; decide

theorem histAccum : Statement .histAccum := by unfold Statement; decide

theorem palExtract (maxColors : Int) : Statement (.palExtract maxColors) := by
  have h : ∀ (n : String) (p : Byte) (v : Word), p ≠ 3 → v = commandWord 0 0 p →
      rowMatches ⟨n, v, 0xFFFFFFFF#32⟩ (commandWord (immOf maxColors) 0 3) = false :=
    fun n p v hp hv => by
      rw [matches_exact, decide_eq_false_iff_not, hv]
      exact fun he => hp (commandWord_inj.1 he).2.2.symm
  have h3 : rowMatches ⟨"pal.extract", 0x00000003#32, 0x0000FFFF#32⟩
      (commandWord (immOf maxColors) 0 3) = true := by
    rw [matches_extract, decide_eq_true_eq]
    exact ⟨reservedField_commandWord _ _ _, opcodeField_commandWord _ _ _⟩
  simp only [Statement, opcodeMap, encode, List.filter_cons, h3,
    h _ 0 0x00000000#32 (by decide) (by decide), h _ 1 0x00000001#32 (by decide) (by decide),
    h _ 2 0x00000002#32 (by decide) (by decide), h _ 4 0x00000004#32 (by decide) (by decide),
    h _ 5 0x00000005#32 (by decide) (by decide), h _ 6 0x00000006#32 (by decide) (by decide),
    h _ 7 0x00000007#32 (by decide) (by decide), h _ 15 0x0000000F#32 (by decide) (by decide)]
  rfl

theorem mapNearest : Statement .mapNearest := by unfold Statement; decide

theorem mapQuantize : Statement .mapQuantize := by unfold Statement; decide

theorem sagEncode : Statement .sagEncode := by unfold Statement; decide

theorem sagDecode : Statement .sagDecode := by unfold Statement; decide

theorem softReset : Statement .softReset := by unfold Statement; decide

end Sys2Proof.Laws.RowOfEncoding
end

