-- ==== Sys2Proof/Laws/Stream.lean ====
section
/-!
SUPPORT. The byte offsets of the wire format: lengths and positions of what the encoder emits and the decoder
reads (42_sag_encoder.md R191 to R196, 20_memory.md R85).
-/
namespace Sys2Proof.Machine

/-! ### Lists cut into pieces -/

theorem flatMap_range_length {α : Type} {f : Nat → List α} {len n : Nat}
    (h : ∀ i, i < n → (f i).length = len) : ((List.range n).flatMap f).length = n * len := by
  induction n with
  | zero => simp
  | succ n ih =>
    rw [List.range_succ, List.flatMap_append, List.length_append,
      ih fun i hi => h i (by omega)]
    simp [h n (by omega), Nat.succ_mul]

/-- Position `i * len + j` of the pieces `f 0, f 1, …` is position `j` of piece `i`, when the pieces before
it all have length `len`. -/
theorem flatMap_range_getElem? {α : Type} {f : Nat → List α} {len n i j : Nat} (hi : i < n)
    (hlen : ∀ k, k < i → (f k).length = len) (hj : j < (f i).length) :
    ((List.range n).flatMap f)[i * len + j]? = (f i)[j]? := by
  induction n with
  | zero => omega
  | succ n ih =>
    rw [List.range_succ, List.flatMap_append]
    rcases Nat.lt_or_ge i n with h | h
    · have h1 := ih h
      rw [List.getElem?_eq_getElem hj] at h1
      obtain ⟨hlt, -⟩ := List.getElem?_eq_some_iff.1 h1
      rw [List.getElem?_append_left hlt, h1, List.getElem?_eq_getElem hj]
    · have hin : i = n := by omega
      subst hin
      have hl := flatMap_range_length (n := i) hlen
      rw [List.getElem?_append_right (by omega), hl]
      simp

/-! ### Blocks of a row -/

theorem blockWidth_full {w k x : Nat} (hx : x < w) (hk : k < x / 8) : blockWidth w k = 8 := by
  simp only [blockWidth, Config.blockW]; omega

theorem lt_blockWidth {w x : Nat} (hx : x < w) : x % 8 < blockWidth w (x / 8) := by
  simp only [blockWidth, Config.blockW]; omega

theorem div_lt_ceil8 {w x : Nat} (hx : x < w) : x / 8 < ceil8 w := by
  simp only [ceil8]; omega

theorem blockWidth_before_last {w k n : Nat} (hk : k < n) (hn : n < ceil8 w) :
    blockWidth w k = 8 := by
  simp only [blockWidth, Config.blockW, ceil8] at *; omega

/-- The blocks of a row cover its `w` pixels. -/
theorem blockWidth_sum (w n : Nat) (hn : n ≤ ceil8 w) :
    ((List.range n).map (blockWidth w)).sum = min w (8 * n) := by
  induction n with
  | zero => simp
  | succ n ih =>
    rw [List.range_succ, List.map_append, List.sum_append, ih (by omega)]
    simp only [List.map_cons, List.map_nil, List.sum_cons, List.sum_nil, blockWidth, Config.blockW,
      ceil8] at *
    omega

/-! ### What the encoder emits -/

@[simp] theorem bytesBe16_length (v : Nat) : (bytesBe16 v).length = 2 := rfl

theorem slotBytes_length (pal : PaletteRam) (n i : Nat) : (slotBytes pal n i).length = 3 := by
  unfold slotBytes; split <;> rfl

/-- The header has 780 bytes (42_sag_encoder.md R191). -/
@[simp] theorem headerBytes_length (w h f d : Nat) (pal : PaletteRam) (n : Nat) :
    (headerBytes w h f d pal n).length = 780 := by
  simp [headerBytes, Config.paletteSize,
    flatMap_range_length (len := 3) fun i _ => slotBytes_length pal n i]

@[simp] theorem blockBytes_length (idx : Nat → Nat → Nat → Byte) (w f y k : Nat) :
    (blockBytes idx w f y k).length = 1 + blockWidth w k := by
  simp [blockBytes, blockIndices, Nat.add_comm]

@[simp] theorem rowBytes_length (idx : Nat → Nat → Nat → Byte) (w f y : Nat) :
    (rowBytes idx w f y).length = rowLen w := by
  have h : ∀ n, ((List.range n).flatMap (blockBytes idx w f y)).length =
      n + ((List.range n).map (blockWidth w)).sum := by
    intro n
    induction n with
    | zero => simp
    | succ n ih =>
      rw [List.range_succ, List.flatMap_append, List.length_append, ih, List.map_append,
        List.sum_append]
      simp
      omega
  rw [rowBytes, h, blockWidth_sum w _ (le_refl _), rowLen]
  simp only [ceil8]
  omega

@[simp] theorem frameBytes_length (idx : Nat → Nat → Nat → Byte) (w h f : Nat) :
    (frameBytes idx w h f).length = frameLen w h :=
  flatMap_range_length fun _ _ => rowBytes_length _ _ _ _

@[simp] theorem framesBytes_length (idx : Nat → Nat → Nat → Byte) (w h frames : Nat) :
    (framesBytes idx w h frames).length = frames * frameLen w h :=
  flatMap_range_length fun _ _ => frameBytes_length _ _ _ _

/-- The stream has `sag_len` bytes (42_sag_encoder.md R196). -/
@[simp] theorem encodeOutput_length (s : State) :
    (encodeOutput s).length = sagLen s.operands.width.toNat s.operands.height.toNat
      s.operands.frameCount.toNat := by
  simp [encodeOutput, sagLen, frameLen, Nat.mul_assoc]

/-- Inside the frame data, byte `j` of block `k` of row `y` of frame `f`. -/
theorem framesBytes_getElem? (idx : Nat → Nat → Nat → Byte) {w h frames f y k j : Nat}
    (hf : f < frames) (hy : y < h) (hk : k < ceil8 w) (hj : j < 1 + blockWidth w k) :
    (framesBytes idx w h frames)[f * frameLen w h + (y * rowLen w + (k * 9 + j))]? =
      (blockBytes idx w f y k)[j]? := by
  have hrow : (rowBytes idx w f y)[k * 9 + j]? = (blockBytes idx w f y k)[j]? :=
    flatMap_range_getElem? hk
      (fun i hi => by rw [blockBytes_length, blockWidth_before_last hi hk]) (by simpa using hj)
  have lt_of_some : ∀ {l : List Byte} {n : Nat} {b : Byte}, l[n]? = some b → n < l.length :=
    fun h => (List.getElem?_eq_some_iff.1 h).1
  have hb : (blockBytes idx w f y k)[j]? = some ((blockBytes idx w f y k)[j]'(by simpa using hj)) :=
    List.getElem?_eq_getElem _
  have hframe : (frameBytes idx w h f)[y * rowLen w + (k * 9 + j)]? =
      (blockBytes idx w f y k)[j]? := by
    rw [frameBytes, flatMap_range_getElem? (f := rowBytes idx w f) hy (fun i _ => rowBytes_length _ _ _ _)
      (lt_of_some (hrow.trans hb)), hrow]
  rw [framesBytes, flatMap_range_getElem? (f := frameBytes idx w h) hf (fun i _ => frameBytes_length _ _ _ _)
    (lt_of_some (hframe.trans hb)), hframe]

/-- The mask byte of a block stands at `off_mask` (42_sag_encoder.md R193). -/
theorem stream_mask (hdr : List Byte) (hh : hdr.length = 780) (idx : Nat → Nat → Nat → Byte)
    {w h frames f y k : Nat} (hf : f < frames) (hy : y < h) (hk : k < ceil8 w) :
    (hdr ++ framesBytes idx w h frames)[maskOffset w h f y k]? =
      some (BitVec.ofNat 8 (maskValue idx w f y k)) := by
  rw [List.getElem?_append_right (by simp only [maskOffset, Config.headerLen]; omega), hh,
    show maskOffset w h f y k - 780 = f * frameLen w h + (y * rowLen w + (k * 9 + 0)) by
      simp only [maskOffset, Config.headerLen]; omega,
    framesBytes_getElem? idx hf hy hk (by omega)]
  simp [blockBytes]

/-- The index byte of a pixel stands at `off_index` (42_sag_encoder.md R193). -/
theorem stream_index (hdr : List Byte) (hh : hdr.length = 780) (idx : Nat → Nat → Nat → Byte)
    {w h frames f x y : Nat} (hf : f < frames) (hy : y < h) (hx : x < w) :
    (hdr ++ framesBytes idx w h frames)[indexOffset w h f x y]? = some (idx f x y) := by
  have hb := lt_blockWidth hx
  rw [List.getElem?_append_right (by simp only [indexOffset, Config.headerLen]; omega), hh,
    show indexOffset w h f x y - 780 =
        f * frameLen w h + (y * rowLen w + (x / 8 * 9 + (x % 8 + 1))) by
      simp only [indexOffset, Config.headerLen]; omega,
    framesBytes_getElem? idx hf hy (div_lt_ceil8 hx) (by omega)]
  simp [blockBytes, blockIndices, hb, Nat.div_add_mod]

/-! ### The mask byte as bits -/

theorem mask_bits_table : ∀ n < 9, ∀ q < 256, ∀ b < 8,
    (BitVec.ofNat 8 ((List.range n).map fun b => if q.testBit b then 2 ^ (7 - b) else 0).sum).getLsbD
      (7 - b) = (decide (b < n) && q.testBit b) := by decide +kernel

/-- A byte that sums `2^(7-b)` over the pixels `b < n` that satisfy `p` has bit `7 - b` set exactly for
them. -/
theorem mask_bits (p : Nat → Bool) {n b : Nat} (hn : n ≤ 8) (hb : b < 8) :
    (BitVec.ofNat 8 ((List.range n).map fun b => if p b then 2 ^ (7 - b) else 0).sum).getLsbD
      (7 - b) = (decide (b < n) && p b) := by
  have hq : ∀ c, c < 8 → (Nat.ofBits fun i : Fin 8 => p i.val).testBit c = p c := fun c hc => by
    simp [Nat.testBit_ofBits_lt, hc]
  have h := mask_bits_table n (by omega) (Nat.ofBits fun i : Fin 8 => p i.val)
    (Nat.ofBits_lt_two_pow _) b hb
  rw [hq b hb] at h
  rw [← h]
  congr 3
  refine List.map_congr_left fun c hc => ?_
  rw [hq c (by have := List.mem_range.1 hc; omega)]

/-- Bit `7 - b` of the mask byte of a block (42_sag_encoder.md R194). -/
theorem maskValue_bit (idx : Nat → Nat → Nat → Byte) (w f y k b : Nat) (hb : b < 8) :
    (BitVec.ofNat 8 (maskValue idx w f y k)).getLsbD (7 - b) =
      (decide (b < blockWidth w k) && decide (0 < f) &&
        decide (idx f (8 * k + b) y = idx (f - 1) (8 * k + b) y)) := by
  unfold maskValue
  split
  · rename_i hf
    simp [hf]
  · rename_i hf
    have h := mask_bits (fun b => decide (idx f (8 * k + b) y = idx (f - 1) (8 * k + b) y))
      (n := blockWidth w k) (by simp only [blockWidth, Config.blockW]; omega) hb
    simp only [decide_eq_true_eq] at h
    rw [h]
    simp [Nat.pos_of_ne_zero hf]

/-! ### What the decoder reads -/

theorem decodeBlock_length (m : Memory) (base w h f y k : Nat) :
    (decodeBlock m base w h f y k).length = blockWidth w k := by simp [decodeBlock]

theorem decodeRow_length (m : Memory) (base w h f y : Nat) :
    ((List.range (ceil8 w)).flatMap fun k => decodeBlock m base w h f y k).length = w := by
  have hs : ∀ n, ((List.range n).flatMap fun k => decodeBlock m base w h f y k).length =
      ((List.range n).map (blockWidth w)).sum := by
    intro n
    induction n with
    | zero => simp
    | succ n ih =>
      rw [List.range_succ, List.flatMap_append, List.length_append, ih, List.map_append,
        List.sum_append]
      simp [decodeBlock_length]
  rw [hs, blockWidth_sum w _ (le_refl _)]
  simp only [ceil8]
  omega

/-- The decoder writes one byte per pixel (43_sag_decoder.md R230). -/
@[simp] theorem decodeOutput_length (m : Memory) (base w h frames : Nat) :
    (decodeOutput m base w h frames).length = frames * (h * w) :=
  flatMap_range_length fun _ _ => flatMap_range_length fun _ _ => decodeRow_length _ _ _ _ _ _

/-- Pixel `(x, y)` of frame `f` is read at `off_index` and put at its place in the layout of 20_memory.md
R85 (43_sag_decoder.md R230). -/
theorem decodeOutput_getElem? (m : Memory) (base : Nat) {w h frames f x y : Nat} (hf : f < frames)
    (hy : y < h) (hx : x < w) :
    (decodeOutput m base w h frames)[f * w * h + y * w + x]? =
      some (m.read (base + indexOffset w h f x y)) := by
  have hb := lt_blockWidth hx
  have hblock : (decodeBlock m base w h f y (x / 8))[x % 8]? =
      some (m.read (base + indexOffset w h f x y)) := by
    simp only [decodeBlock, List.getElem?_map, List.getElem?_range hb, Option.map_some]
    congr 2
    simp only [maskOffset, indexOffset, Config.headerLen]
    omega
  have hrow : ((List.range (ceil8 w)).flatMap fun k => decodeBlock m base w h f y k)[x / 8 * 8 +
      x % 8]? = some (m.read (base + indexOffset w h f x y)) := by
    rw [flatMap_range_getElem? (div_lt_ceil8 hx)
      (fun i hi => by rw [decodeBlock_length, blockWidth_full hx hi])
      (by rw [decodeBlock_length]; exact hb), hblock]
  have hframe : ((List.range h).flatMap fun y => (List.range (ceil8 w)).flatMap fun k =>
      decodeBlock m base w h f y k)[y * w + (x / 8 * 8 + x % 8)]? =
      some (m.read (base + indexOffset w h f x y)) := by
    rw [flatMap_range_getElem? hy (fun i _ => decodeRow_length m base w h f i)
      (by rw [decodeRow_length]; omega), hrow]
  have hlt : y * w + (x / 8 * 8 + x % 8) < h * w := by
    have : (y + 1) * w ≤ h * w := Nat.mul_le_mul_right w hy
    rw [Nat.succ_mul] at this
    omega
  rw [decodeOutput, show f * w * h + y * w + x = f * (h * w) + (y * w + (x / 8 * 8 + x % 8)) by
    rw [Nat.mul_assoc, Nat.mul_comm w h]; omega]
  rw [flatMap_range_getElem? hf
    (fun i _ => flatMap_range_length fun y _ => decodeRow_length m base w h i y)
    (by rw [flatMap_range_length fun y _ => decodeRow_length m base w h f y]; exact hlt), hframe]

end Sys2Proof.Machine
end

