-- ==== Sys2Proof/Laws/Ready.lean ====
section
/-!
SUPPORT. When the checks of the commands pass, spelled on the state, what the commands then are, and what
memory reads after an encode or a decode.
-/
namespace Sys2Proof.Machine

/-! ### One check -/

theorem firstError_cons_of_pass {c : Unit → Bool} (e : ErrorCode) (cs : List Check)
    (h : c () = false) : firstError ((c, e) :: cs) = firstError cs := by simp [firstError_cons, h]

theorem firstError_cons_of_fail {c : Unit → Bool} (e : ErrorCode) (cs : List Check)
    (h : c () = true) : firstError ((c, e) :: cs) = some e := by simp [firstError_cons, h]

theorem not_eq_false_of {b : Bool} (h : b = true) : (!b) = false := by simp [h]

theorem not_eq_true_of {b : Bool} (h : ¬ b = true) : (!b) = true := by
  cases b
  · rfl
  · exact absurd rfl h

/-- A command whose first failing check raises `code` fails with it. -/
theorem conclude_fails {checks : List Check} {commit : State → State} {s : State} {code : ErrorCode}
    (h : firstError checks = some code) :
    conclude checks commit s = .next { s with status := errorStatus s.status code } :=
  conclude_of_error h

theorem Region.overlaps_false_iff (r q : Region) :
    r.overlaps q = false ↔ ¬ overlapAt r.addr r.len q.addr q.len := by
  rw [← Region.overlaps_iff]; simp

/-! ### Nearest and quantize -/

/-- With a palette in use the palette checks pass (41_nearest_quantizer.md R170, R176). -/
theorem firstError_paletteChecks {s : State} (h : paletteReady s) (cs : List Check) :
    firstError (paletteChecks s ++ cs) = firstError cs := by
  unfold paletteChecks
  rw [List.cons_append, firstError_cons_of_pass, List.cons_append, firstError_cons_of_pass]
  · rfl
  · have := h.1
    exact decide_eq_false (by simp only [palCountNat]; omega)
  · have := h.2
    exact decide_eq_false (by simp only [palCountNat, Config.paletteSize]; omega)

theorem exec_mapNearest_of_ready {s : State} (h : paletteReady s) :
    exec .mapNearest s = .next (succeed (nearestCommit s)) := by
  have := firstError_paletteChecks h []
  rw [List.append_nil] at this
  rw [exec_mapNearest, conclude_of_pass this]

theorem exec_mapQuantize_of_ready {s : State} (h : quantizeReady s) :
    exec .mapQuantize s = .next (succeed (quantizeCommit s)) := by
  obtain ⟨h1, h2, h3, h4, h5⟩ := h
  rw [exec_mapQuantize, conclude_of_pass]
  unfold quantizeChecks
  rw [firstError_paletteChecks h1, firstError_cons_of_pass, firstError_cons_of_pass,
    firstError_cons_of_pass, firstError_cons_of_pass, firstError_cons_of_pass]
  · rfl
  · exact (Region.overlaps_false_iff _ _).2 h5
  · exact not_eq_false_of ((Region.admitted_iff s.platform (indexRegion s) .write).2 h4)
  · exact not_eq_false_of ((Region.admitted_iff s.platform (pixelRegion s) .read).2 h2.2)
  · exact not_eq_false_of ((Region.inRange_iff (indexRegion s)).2 h3)
  · exact not_eq_false_of ((Region.inRange_iff (pixelRegion s)).2 h2.1)

/-- The query's projection, on the register words (10_state.md R47, R48). -/
theorem proj_queryColour (s : State) : (queryColour s).proj =
    ⟨s.operands.queryRG.extractLsb' 24 8, s.operands.queryRG.extractLsb' 8 8,
      s.operands.queryBA.extractLsb' 24 8⟩ := by
  simp only [queryColour, Colour.proj, topByte]
  congr 1 <;>
    (apply BitVec.eq_of_getLsbD_eq; intro i hi; simp [hi, show 8 + i < 16 by omega, ← Nat.add_assoc])

/-! ### Encode -/

/-- Dimensions in range pass the first check of `ENCODE` (42_sag_encoder.md R200). -/
theorem dimension_check_passes {s : State} (h1 : 1 ≤ s.operands.width.toNat)
    (h2 : s.operands.width.toNat ≤ 65535) (h3 : 1 ≤ s.operands.height.toNat)
    (h4 : s.operands.height.toNat ≤ 65535) (h5 : s.operands.frameCount.toNat ≤ 65535) :
    (decide (s.operands.width.toNat = 0) || decide (s.operands.height.toNat = 0) ||
      decide (Config.fieldMax < s.operands.width.toNat) ||
      decide (Config.fieldMax < s.operands.height.toNat) ||
      decide (Config.fieldMax < s.operands.frameCount.toNat)) = false := by
  have e : Config.fieldMax = 65535 := rfl
  simp only [Bool.or_eq_false_iff, decide_eq_false_iff_not, e]
  omega

/-- With a legal image the first three checks of `ENCODE` pass. -/
theorem firstError_encodeChecks {s : State} (h : imageReady s) :
    firstError (encodeChecks s) = firstError ((encodeChecks s).drop 3) := by
  obtain ⟨h1, h2, h3, h4, h5, h6, h7⟩ := h
  unfold encodeChecks
  simp only [List.drop]
  rw [firstError_cons_of_pass, firstError_cons_of_pass, firstError_cons_of_pass]
  · exact decide_eq_false (by simp only [encodeDelay, Config.fieldMax]; omega)
  · exact decide_eq_false (by simp only [palCountNat, Config.paletteSize]; omega)
  · exact dimension_check_passes h1 h2 h3 h4 h5

theorem exec_sagEncode_of_ready {s : State} (h : encodeReady s) :
    exec .sagEncode s = .next (succeed (encodeCommit s)) := by
  obtain ⟨h0, h1, h2, h3, h4, h5⟩ := h
  rw [exec_sagEncode, conclude_of_pass]
  rw [firstError_encodeChecks h0]
  unfold encodeChecks
  simp only [List.drop]
  rw [firstError_cons_of_pass, firstError_cons_of_pass, firstError_cons_of_pass,
    firstError_cons_of_pass, firstError_cons_of_pass]
  · rfl
  · exact (Region.overlaps_false_iff _ _).2 h5
  · exact not_eq_false_of ((Region.admitted_iff s.platform (encodeDest s) .write).2 h4)
  · exact not_eq_false_of ((Region.admitted_iff s.platform (encodeSource s) .read).2 h3)
  · exact not_eq_false_of ((Region.inRange_iff (encodeDest s)).2 h2)
  · exact not_eq_false_of ((Region.inRange_iff (encodeSource s)).2 h1)

/-- After the writes of `ENCODE`, memory reads the stream from `DST_ADDR` on (20_memory.md R86). -/
theorem encodeCommit_read (s : State) {o : Nat} {b : Byte} (h : (encodeOutput s)[o]? = some b) :
    (encodeCommit s).mem.read (s.operands.dstAddr.toNat + o) = b := by
  obtain ⟨ho, rfl⟩ := List.getElem?_eq_some_iff.1 h
  exact Memory.read_writeBytes_inside ho

/-- The first 780 bytes of the stream are the header (42_sag_encoder.md R190). -/
theorem encodeOutput_header (s : State) {o : Nat} (h : o < 780) :
    (encodeOutput s)[o]? = (headerBytes s.operands.width.toNat s.operands.height.toNat
      s.operands.frameCount.toNat (encodeDelay s) s.palette (palCountNat s))[o]? := by
  unfold encodeOutput
  exact List.getElem?_append_left (by simpa using h)

/-- Byte `j` of palette slot `i` of a header (42_sag_encoder.md R191). -/
theorem headerBytes_slot (w h f d : Nat) (pal : PaletteRam) (n i j : Nat) (hi : i < 256) (hj : j < 3) :
    (headerBytes w h f d pal n)[12 + 3 * i + j]? = (slotBytes pal n i)[j]? := by
  have slot := flatMap_range_getElem? (f := slotBytes pal n) (len := 3) (n := 256) (i := i) (j := j) hi
    (fun k _ => slotBytes_length pal n k) (by rw [slotBytes_length]; exact hj)
  unfold headerBytes
  rw [List.getElem?_append_right (by simp; omega)]
  simp only [List.length_append, bytesBe16_length, List.length_cons, List.length_nil]
  rw [← slot]
  congr 1
  omega

/-- A header field reads back (00_scope.md R20). -/
theorem be16_ofNat {v : Nat} (h : v ≤ 65535) :
    be16 (BitVec.ofNat 8 (v / 256)) (BitVec.ofNat 8 (v % 256)) = v := by
  simp only [be16, BitVec.toNat_ofNat]
  omega

theorem be16_lt (hi lo : Byte) : be16 hi lo < 65536 := by
  have := hi.isLt
  have := lo.isLt
  simp only [be16]
  omega

/-! ### Decode -/

theorem signatureOk_iff (s : State) : signatureOk s = true ↔ inputSigned s := by
  simp [signatureOk, Memory.readBytes, List.range, List.range.loop, inputSigned]

/-- With a readable, whole stream the first six checks of `DECODE` pass (43_sag_decoder.md R230). -/
theorem firstError_decodeChecks {s : State} (h : inputReady s) :
    firstError (decodeChecks s) = firstError ((decodeChecks s).drop 6) := by
  obtain ⟨h1, h2, h3, h4, h5, h6⟩ := h
  unfold decodeChecks
  simp only [List.drop]
  rw [firstError_cons_of_pass, firstError_cons_of_pass, firstError_cons_of_pass,
    firstError_cons_of_pass, firstError_cons_of_pass, firstError_cons_of_pass]
  · exact not_eq_false_of ((Region.admitted_iff s.platform (frameRegion s) .read).2 h6)
  · exact decide_eq_false (by change ¬ (_ < inputNeed s); omega)
  · exact not_eq_false_of ((signatureOk_iff s).2 h4)
  · exact not_eq_false_of ((Region.admitted_iff s.platform (headerRegion s) .read).2 h3)
  · exact decide_eq_false (by simp only [Config.headerLen]; omega)
  · exact not_eq_false_of ((Region.inRange_iff (decodeSource s)).2 h1)

theorem exec_sagDecode_of_ready {s : State} (h : decodeReady s) :
    exec .sagDecode s = .next (succeed (decodeCommit s)) := by
  obtain ⟨h0, h1, h2, h3⟩ := h
  rw [exec_sagDecode, conclude_of_pass]
  rw [firstError_decodeChecks h0]
  unfold decodeChecks
  simp only [List.drop]
  rw [firstError_cons_of_pass, firstError_cons_of_pass, firstError_cons_of_pass]
  · rfl
  · exact (Region.overlaps_false_iff _ _).2 h3
  · exact not_eq_false_of
      ((Region.admitted_iff s.platform (decodeDest s (sourceHeader s)) .write).2 h2)
  · exact not_eq_false_of ((Region.inRange_iff (decodeDest s (sourceHeader s))).2 h1)

/-- A header is read from its first 780 bytes. -/
theorem headerAt_congr {m n : Memory} {base : Nat}
    (h : ∀ j, j < 780 → m.read (base + j) = n.read (base + j)) : headerAt m base = headerAt n base := by
  simp only [headerAt, Memory.readBe16, Nat.add_assoc]
  rw [h 3 (by omega), h 4 (by omega), h (4 + 1) (by omega), h 6 (by omega), h (6 + 1) (by omega),
    h 8 (by omega), h (8 + 1) (by omega), h 10 (by omega), h (10 + 1) (by omega)]

/-- After the writes of `DECODE`, each pixel reads its index byte of the stream
(43_sag_decoder.md R230, 20_memory.md R85). -/
theorem decodeCommit_read (s : State) {f y x : Nat} (hf : f < (sourceHeader s).frameCount)
    (hy : y < (sourceHeader s).height) (hx : x < (sourceHeader s).width) :
    (decodeCommit s).mem.read (s.operands.dstAddr.toNat +
        (f * (sourceHeader s).width * (sourceHeader s).height + y * (sourceHeader s).width + x)) =
      s.mem.read (s.operands.srcAddr.toNat +
        indexOffset (sourceHeader s).width (sourceHeader s).height f x y) := by
  have out := decodeOutput_getElem? s.mem s.operands.srcAddr.toNat hf hy hx
  obtain ⟨ho, he⟩ := List.getElem?_eq_some_iff.1 out
  rw [← he]
  exact Memory.read_writeBytes_inside ho

end Sys2Proof.Machine
end

