-- ==== Sys2Proof/Laws/Step.lean ====
section
/-!
SUPPORT. What a step, a host turn, a register write and a reset can do: one inversion lemma each.
-/
namespace Sys2Proof.Machine

/-! ### Steps -/

/-- Everything a step can do. -/
theorem step_cases {s t : State} (h : step s = .next t) :
    (∃ rest, s.turns = .engine :: rest ∧ s.status.busy = true ∧
      complete { s with turns := rest } = .next t) ∨
    (∃ rest, s.turns = .engine :: rest ∧ s.status.busy = false ∧ t = { s with turns := rest }) ∨
    (∃ rest, s.turns = .host :: rest ∧ hostTurn { s with turns := rest } = .next t) ∨
    (∃ rest, s.turns = .reset :: rest ∧ t = hardwareReset { s with turns := rest }) ∨
    (s.turns = [] ∧ s.status.busy = true ∧ complete s = .next t) ∨
    (s.turns = [] ∧ s.status.busy = false ∧ hostTurn s = .next t) := by
  unfold step at h
  split at h
  · rename_i rest ht
    cases hb : s.status.busy
    · simp only [engineTurn, hb] at h
      cases h
      exact .inr (.inl ⟨rest, ht, rfl, rfl⟩)
    · simp only [engineTurn, hb, if_true] at h
      exact .inl ⟨rest, ht, rfl, h⟩
  · rename_i rest ht
    exact .inr (.inr (.inl ⟨rest, ht, h⟩))
  · rename_i rest ht
    cases h
    exact .inr (.inr (.inr (.inl ⟨rest, ht, rfl⟩)))
  · rename_i ht
    cases hb : s.status.busy
    · rw [hb] at h
      exact .inr (.inr (.inr (.inr (.inr ⟨ht, rfl, h⟩))))
    · rw [hb] at h
      exact .inr (.inr (.inr (.inr (.inl ⟨ht, rfl, h⟩))))

/-- Completion performs the latched command, or fails when the word is none. -/
theorem complete_cases {s t : State} (h : complete s = .next t) :
    (∃ i, decode s.latch = .ok i ∧ exec i s = .next t) ∨
      (∃ e, decode s.latch = .error e ∧ t = raiseError .illegalCommand s) := by
  unfold complete pendingCommand at h
  cases hd : decode s.latch with
  | ok i => rw [hd] at h; exact .inl ⟨i, rfl, h⟩
  | error e => rw [hd] at h; cases h; exact .inr ⟨e, rfl, rfl⟩

/-- Completion always answers a next state. -/
theorem complete_next (s : State) : ∃ t, complete s = .next t := by
  unfold complete
  cases pendingCommand s with
  | ok i => exact exec_next i s
  | error e => exact ⟨_, rfl⟩

/-- After a command the block is idle and `DONE` (60_exceptions.md R264, R265). -/
theorem exec_idle {i : Instr} {s t : State} (h : exec i s = .next t) :
    t.status.busy = false ∧ t.status.done = true := by
  rcases exec_cases h with ⟨_, _, rfl⟩ | ⟨_, rfl⟩ | ⟨_, rfl⟩ | ⟨_, rfl⟩ | ⟨_, _, rfl⟩ |
    ⟨_, _, _, rfl⟩ | ⟨_, _, rfl⟩ | ⟨_, _, rfl⟩ | ⟨_, _, rfl⟩ | ⟨_, _, rfl⟩ <;> simp

theorem complete_idle {s t : State} (h : complete s = .next t) :
    t.status.busy = false ∧ t.status.done = true := by
  rcases complete_cases h with ⟨i, _, h⟩ | ⟨_, _, rfl⟩
  · exact exec_idle h
  · simp

/-! ### Host turns -/

/-- Everything a host turn can do. -/
theorem hostTurn_cases {s t : State} (h : hostTurn s = .next t) :
    (s.script = [] ∧ t = s) ∨
    (∃ off width v rest r, s.script = .wr off width v :: rest ∧ regAccess off width = some r ∧
      t = writeReg { s with script := rest } r v) ∨
    (∃ off width rest r, s.script = .rd off width :: rest ∧ regAccess off width = some r ∧
      t = learn (.reg off (readReg s r)) { s with script := rest }) ∨
    (∃ a b rest, s.script = .storeByte a b :: rest ∧ a < Config.addrSpace ∧
      t = noteHazard (writeHazard s a) { s with script := rest, mem := s.mem.write a b }) ∨
    (∃ a rest, s.script = .loadByte a :: rest ∧ a < Config.addrSpace ∧ readHazard s a = false ∧
      t = learn (.mem a (s.mem.read a)) { s with script := rest }) ∨
    (∃ a rest, s.script = .loadByte a :: rest ∧ a < Config.addrSpace ∧ readHazard s a = true ∧
      t = learn (.mem a (Config.hazardByte s.draws))
        (noteHazard true { s with script := rest, draws := s.draws + 1 })) ∨
    (∃ rest, s.script = .wait :: rest ∧ s.status.busy = false ∧
      t = learn (.reg 0x008 (readReg s .status)) { s with script := rest }) ∨
    (s.status.busy = true ∧ ∃ rest, s.script = .wait :: rest ∧
      t = learn (.reg 0x008 (readReg s .status)) s) := by
  unfold hostTurn at h
  split at h
  · rename_i hs
    cases h
    exact .inl ⟨hs, rfl⟩
  · rename_i st rest hs
    cases st with
    | wr off width v =>
      simp only [runStmt, hostWrite] at h
      split at h
      · cases h
      · rename_i r hr
        cases h
        exact .inr (.inl ⟨off, width, v, rest, r, hs, hr, rfl⟩)
    | rd off width =>
      simp only [runStmt, hostRead] at h
      split at h
      · cases h
      · rename_i r hr
        cases h
        exact .inr (.inr (.inl ⟨off, width, rest, r, hs, hr, by cases r <;> rfl⟩))
    | storeByte a b =>
      simp only [runStmt, hostStore] at h
      split at h
      · rename_i ha
        cases h
        exact .inr (.inr (.inr (.inl ⟨a, b, rest, hs, ha, rfl⟩)))
      · cases h
    | loadByte a =>
      simp only [runStmt, hostLoad] at h
      split at h
      · rename_i ha
        split at h
        · rename_i hz
          cases h
          exact .inr (.inr (.inr (.inr (.inr (.inl ⟨a, rest, hs, ha, hz, rfl⟩)))))
        · rename_i hz
          cases h
          exact .inr (.inr (.inr (.inr (.inl ⟨a, rest, hs, ha, (Bool.not_eq_true _).mp hz, rfl⟩))))
      · cases h
    | wait =>
      simp only [runStmt, hostWait] at h
      cases hb : s.status.busy
      · simp only [hb] at h
        cases h
        exact .inr (.inr (.inr (.inr (.inr (.inr (.inl ⟨rest, hs, rfl, rfl⟩))))))
      · simp only [hb, if_true] at h
        cases h
        refine .inr (.inr (.inr (.inr (.inr (.inr (.inr ⟨rfl, rest, hs, ?_⟩))))))
        simp only [learn, readReg, regOffset, ← hs]

/-! ### Register writes -/

/-- Everything a register write can do: drop the write, issue, clear status bits, set the enables, write
operands or the palette, or nothing (10_state.md R58). -/
theorem writeReg_cases (s : State) (r : Reg) (v : Word) :
    writeReg s r v = s ∨
    (s.status.busy = true ∧ writeReg s r v = setOverrun s) ∨
    (s.status.busy = false ∧ r = .cmd ∧ writeReg s r v = issue v s) ∨
    (r = .status ∧ writeReg s r v = { s with status := s.status.clearOnes v }) ∨
    (r = .intEn ∧ writeReg s r v = { s with intEn := v.setWidth 3 }) ∨
    (s.status.busy = false ∧ ∃ ops, writeReg s r v = { s with operands := ops }) ∨
    (s.status.busy = false ∧ ∃ i, r = .palette i ∧
      writeReg s r v = { s with palette := s.palette.store i (wordRgb8 v) }) := by
  cases hb : s.status.busy
  · cases r <;>
      first
        | exact .inl rfl
        | exact .inr (.inr (.inl ⟨rfl, rfl, by simp [writeReg, whenIdle, hb]⟩))
        | exact .inr (.inr (.inr (.inl ⟨rfl, rfl⟩)))
        | exact .inr (.inr (.inr (.inr (.inl ⟨rfl, rfl⟩))))
        | exact .inr (.inr (.inr (.inr (.inr (.inl
            ⟨rfl, _, by simp only [writeReg, whenIdle, hb]; rfl⟩)))))
        | exact .inr (.inr (.inr (.inr (.inr (.inr
            ⟨rfl, _, rfl, by simp [writeReg, whenIdle, hb]⟩)))))
  · cases r <;>
      first
        | exact .inl rfl
        | exact .inr (.inr (.inr (.inl ⟨rfl, rfl⟩)))
        | exact .inr (.inr (.inr (.inr (.inl ⟨rfl, rfl⟩))))
        | exact .inr (.inl ⟨rfl, by simp [writeReg, whenIdle, hb]⟩)

/-! ### Hardware reset -/

/-- A hardware reset resets the block, and changes memory at most by a block write inside the destination
region of a pending command (70_reset_and_hazards.md R291 to R293). -/
theorem hardwareReset_cases (s : State) :
    (pendingDest s = none ∧ hardwareReset s = resetBlock s) ∨
    (∃ r, pendingDest s = some r ∧ (drawnBytes s r.existing).length = r.existing ∧
      hardwareReset s = resetBlock { s with
        mem := s.mem.writeBytes r.addr (drawnBytes s r.existing)
        draws := s.draws + r.existing }) := by
  unfold hardwareReset scrambleDest
  cases hd : pendingDest s with
  | none => exact .inl ⟨rfl, rfl⟩
  | some r => exact .inr ⟨r, rfl, by simp [drawnBytes], rfl⟩

/-- The destination of a pending command, spelled out. -/
theorem pendingDest_eq_some {s : State} {r : Region} :
    pendingDest s = some r ↔
      s.status.busy = true ∧ ∃ i, decode s.latch = .ok i ∧ destOf s i = some r := by
  unfold pendingDest pendingCommand
  cases hb : s.status.busy <;> cases hd : decode s.latch <;> simp

/-- The source of a pending command, spelled out. -/
theorem pendingSource_eq_some {s : State} {r : Region} :
    pendingSource s = some r ↔
      s.status.busy = true ∧ ∃ i, decode s.latch = .ok i ∧ sourceOf s i = some r := by
  unfold pendingSource pendingCommand
  cases hb : s.status.busy <;> cases hd : decode s.latch <;> simp

theorem inRegion_iff {r : Option Region} {a : Nat} :
    inRegion r a = true ↔ ∃ q, r = some q ∧ q.addr ≤ a ∧ a < q.addr + q.len := by
  cases r <;> simp [inRegion, Region.contains_iff]

end Sys2Proof.Machine
end

