-- ==== Sys2Proof/Laws/Window.lean ====
section
/-!
SUPPORT. Which register an access reaches, and the fields of the `STATUS` word.
-/
namespace Sys2Proof.Machine

theorem regAccess_aligned {off : Nat} (h : off % 4 = 0) (h' : off < 0x800) :
    regAccess off 4 = some (regAtOffset off) := by
  simp [regAccess, h, Config.windowLen, h']

theorem regAccess_refused {off width : Nat} (h : ¬ (width = 4 ∧ off % 4 = 0 ∧ off < 0x800)) :
    regAccess off width = none := if_neg h

/-- The palette's offsets (10_state.md R55). -/
theorem regAtOffset_palette {off : Nat} (h : 0x400 ≤ off) :
    regAtOffset off = .palette ((off - 0x400) / 4) := by
  unfold regAtOffset
  split <;> first | omega | skip
  simp [show ¬ off < 0x400 by omega]

/-- The reserved offsets (10_state.md R56). -/
theorem regAtOffset_reserved {off : Nat} (h : 0x054 ≤ off) (h' : off < 0x400) :
    regAtOffset off = .reserved := by
  unfold regAtOffset
  split <;> first | omega | skip
  simp [h']

/-- `STATUS` as two halves: the codes above, the flags below (10_state.md R35). -/
theorem Status.word_flags (st : Status) :
    st.word.getLsbD 0 = st.busy ∧ st.word.getLsbD 1 = st.done ∧ st.word.getLsbD 2 = st.error ∧
      st.word.getLsbD 3 = st.overrun := by
  simp only [Status.word, flagBit, BitVec.getLsbD_append]
  simp

/-- The fields of `STATUS` above its flags, reserved bits included (10_state.md R35). -/
theorem Status.word_fields (st : Status) :
    st.word.extractLsb' 4 4 = 0#4 ∧ st.word.extractLsb' 8 8 = st.errCode.code ∧
      st.word.extractLsb' 16 8 = st.lastOp ∧ st.word.extractLsb' 24 8 = 0#8 := by
  refine ⟨?_, ?_, ?_, ?_⟩ <;> apply BitVec.eq_of_getLsbD_eq <;> intro i hi <;>
    simp only [Status.word, flagBit, BitVec.getLsbD_extractLsb', BitVec.getLsbD_append] <;>
    interval_cases i <;> simp

end Sys2Proof.Machine
end

