-- ==== Sys2Proof/Tests/Slice0.lean ====
section
/-!
SUPPORT. Tests: words written out from the encoding tables, ill-formed terms, the vectors of
spec/95_test_vectors.md one step at a time, and for every obligation with hypotheses a state that meets them
(the theorems `witness_<obligation>`).
-/
namespace Sys2Proof.Tests
open Sys2Proof.Machine

/-! The theorems are checked one after another, so that their number does not set the number of threads. -/
set_option Elab.async false

/-! ### States -/

/-- The outcome is a next state with this property. -/
def after (o : Host.Outcome State Fault Refusal) (p : State → Bool) : Bool :=
  match o with
  | .next t => p t
  | .fault _ => false
  | .refused _ => false

/-- The outcome is a next state whose `STATUS` reads this word. -/
def statusAfter (o : Host.Outcome State Fault Refusal) (v : Word) : Bool :=
  after o fun t => readReg t .status == v

/-- The state with these palette entries from slot 0 on, all of them in use. -/
def withPalette (es : List Rgb8) (s : State) : State :=
  { s with
    palette := PaletteRam.tabulate fun i => es.getD i Rgb8.black
    operands := { s.operands with palCount := BitVec.ofNat 32 es.length } }

/-- The state with these bytes placed in memory. -/
def withBytes (a : Nat) (bs : List Byte) (s : State) : State :=
  { s with mem := s.mem.writeBytes a bs }

/-- The state with these source, destination and pixel count. -/
def withRegions (src dst n : Nat) (s : State) : State :=
  { s with operands := { s.operands with
      srcAddr := BitVec.ofNat 32 src, dstAddr := BitVec.ofNat 32 dst,
      pixCount := BitVec.ofNat 32 n } }

/-- The state with this image size and delay. -/
def withImage (w h f d : Nat) (s : State) : State :=
  { s with operands := { s.operands with
      width := BitVec.ofNat 32 w, height := BitVec.ofNat 32 h,
      frameCount := BitVec.ofNat 32 f, delay := BitVec.ofNat 32 d } }

/-- The state with this `SRC_LEN`. -/
def withSrcLen (n : Nat) (s : State) : State :=
  { s with operands := { s.operands with srcLen := BitVec.ofNat 32 n } }

/-- The state with this `PAL_COUNT`. -/
def withPalCount (n : Nat) (s : State) : State :=
  { s with operands := { s.operands with palCount := BitVec.ofNat 32 n } }

/-- The state with this query colour. -/
def withQuery (rg ba : Word) (s : State) : State :=
  { s with operands := { s.operands with queryRG := rg, queryBA := ba } }

/-- The state with this histogram. -/
def withHist (h : Histogram) (s : State) : State := { s with hist := h }

/-- The reference platform, its memory backed for these kinds of access, its histogram this large. -/
def platformOf (reads writes : Bool) (capacity : Nat) : Platform :=
  { Platform.reference with
    windows := [⟨0, Config.addrSpace, reads, writes⟩], histCapacity := capacity }

/-- The state on another platform. -/
def onPlatform (reads writes : Bool) (capacity : Nat) (s : State) : State :=
  { s with platform := platformOf reads writes capacity }

/-- The state in which this word is issued. -/
def issued (w : Word) (s : State) : State := issue w s

/-- The state with this schedule and this host program. -/
def withHost (turns : List Turn) (script : List HostStmt) (s : State) : State :=
  { s with turns := turns, script := script }

def redBytes : List Byte := [0xFF, 0xFF, 0, 0, 0, 0, 0xFF, 0xFF]
def blueBytes : List Byte := [0, 0, 0, 0, 0xFF, 0xFF, 0xFF, 0xFF]
def red : Colour := ⟨0xFFFF, 0, 0, 0xFFFF⟩
def blue : Colour := ⟨0, 0, 0xFFFF, 0xFFFF⟩
def c1 : Colour := ⟨0x1000, 0, 0, 0xFFFF⟩
def c2 : Colour := ⟨0x2000, 0, 0, 0xFFFF⟩
def c3 : Colour := ⟨0x0800, 0, 0, 0xFFFF⟩

/-- Vector ACC-1: pixels `A_red, A_red, B_blue`. -/
def acc1 : State :=
  withRegions 0x1000 0 3 (withBytes 0x1000 (redBytes ++ redBytes ++ blueBytes) State.reset)

/-- The histogram of vectors EXT-1 to EXT-8. -/
def ext1 : State := withHist [⟨c3, 3⟩, ⟨c1, 3⟩, ⟨c2, 5⟩] State.reset

/-- A histogram of 257 colours. -/
def manyColours : State :=
  withHist ((List.range 257).map fun i => ⟨⟨BitVec.ofNat 16 i, 0, 0, 0⟩, 1⟩) State.reset

/-- Vector NEA-1: a black and a white entry. -/
def nea1 : State :=
  withQuery 0x0A0A0A0A 0x0A0AFFFF (withPalette [⟨0, 0, 0⟩, ⟨255, 255, 255⟩] State.reset)

/-- Vector QUA-1 at this destination, for this many pixels. -/
def quaAt (dst n : Nat) : State :=
  withRegions 0x1000 dst n (withBytes 0x1000 (redBytes ++ blueBytes)
    (withPalette [⟨0, 0, 255⟩, ⟨255, 0, 0⟩] State.reset))

/-- Vector ENC-1 with this image and destination. -/
def encAt (w h f d dst : Nat) : State :=
  withRegions 0x2000 dst 0 (withImage w h f d
    (withBytes 0x2000 [1, 1, 0, 0, 1, 0, 1, 0]
      (withPalette [⟨0, 0, 0xFF⟩, ⟨0xFF, 0, 0⟩] State.reset)))

/-- Vector ENC-1. -/
def enc1 : State := encAt 2 2 2 10 0x3000

/-- Vector ENC-2: nine columns, two equal frames. -/
def enc2 : State :=
  withPalCount 9 (withRegions 0x2000 0x3000 0 (withImage 9 1 2 10
    (withBytes 0x2000 [0, 1, 2, 3, 4, 5, 6, 7, 8, 0, 1, 2, 3, 4, 5, 6, 7, 8] State.reset)))

/-- The stream `S1` of ENC-1, with this signature tail, delay and frame bytes. -/
def stream (third delayHi delayLo : Byte) (frames : List Byte) : List Byte :=
  [0x53, 0x41, third, 1, 0, 2, 0, 2, 0, 2, delayHi, delayLo, 0, 0, 0xFF, 0xFF, 0, 0] ++
    List.replicate 762 0 ++ frames

def s1Frames : List Byte := [0, 1, 1, 0, 0, 0, 0x80, 1, 0, 0x40, 1, 0]

/-- Vectors DEC-1 to DEC-13: a stream at `0x3000` of this length, for this destination. -/
def decAt (bytes : List Byte) (len dst : Nat) : State :=
  withSrcLen len (withRegions 0x3000 dst 0 (withBytes 0x3000 bytes State.reset))

def s1 : List Byte := stream 0x47 0 0x64 s1Frames

/-- Vector DEC-1. -/
def dec1 : State := decAt s1 792 0x4000

/-! ### Well-formedness and words -/

theorem test_wellFormed_refuses_32768 : (Instr.palExtract 32768).wellFormed = false := by decide
theorem test_wellFormed_refuses_minus_32769 :
    (Instr.palExtract (-32769)).wellFormed = false := by decide
theorem test_assemble_refuses_ill_formed :
    assemble (.palExtract 32768) = none ∧ assemble (.palExtract (-32769)) = none := by decide

/-! Words written out from 30_encoding.md R110 and R112: `IMM16`, `RSVD`, `OPCODE`. -/
theorem test_decode_nop : decode 0b00000000000000000000000000000000#32 = .ok .nop := by decide
theorem test_decode_hist_clear :
    decode 0b00000000000000000000000000000001#32 = .ok .histClear := by decide
theorem test_decode_hist_accum :
    decode 0b00000000000000000000000000000010#32 = .ok .histAccum := by decide
theorem test_decode_pal_extract :
    decode 0b00000001000000000000000000000011#32 = .ok (.palExtract 256) := by decide
theorem test_decode_pal_extract_negative :
    decode 0b11111111111111110000000000000011#32 = .ok (.palExtract (-1)) := by decide
theorem test_decode_map_nearest :
    decode 0b00000000000000000000000000000100#32 = .ok .mapNearest := by decide
theorem test_decode_map_quantize :
    decode 0b00000000000000000000000000000101#32 = .ok .mapQuantize := by decide
theorem test_decode_sag_encode :
    decode 0b00000000000000000000000000000110#32 = .ok .sagEncode := by decide
theorem test_decode_sag_decode :
    decode 0b00000000000000000000000000000111#32 = .ok .sagDecode := by decide
theorem test_decode_soft_reset :
    decode 0b00000000000000000000000000001111#32 = .ok .softReset := by decide

/-- Reserved opcodes at the edges of the holes of the map, `RSVD` and `IMM16` not zero. -/
theorem test_decode_illegal_words :
    [0x08#32, 0x0E#32, 0x10#32, 0xFF#32, 0x00010002#32, 0x00000100#32, 0x0000FF03#32,
      0x80000000#32].all (fun w => match decode w with | .ok _ => false | .error _ => true) =
      true := by decide

theorem test_encode_words :
    encode (.palExtract (-32768)) = 0x80000003#32 ∧ encode (.palExtract 257) = 0x01010003#32 ∧
      encode .softReset = 0x0000000F#32 := by decide

theorem test_decodeTableWord :
    decodeTableWord 32 0x01000003 = some (.palExtract 256) ∧ decodeTableWord 32 0x08 = none := by
  decide

/-! ### The vectors of spec/95_test_vectors.md, one step each -/

theorem test_ctl1_nop : statusAfter (step (State.reset.withFetchWord 32 0)) 0x00000002 = true := by
  decide +kernel

theorem test_ctl2_soft_reset :
    after (step ((withHost [] [] (withHist [⟨red, 1⟩] (withPalCount 5
        { nea1 with intEn := 7, status := { Status.reset with overrun := true } }))).withFetchWord
        32 0xF)) (fun t =>
      readReg t .status == 0x000F0002 && readReg t .palCount == 0 && readReg t .intEn == 0 &&
        readReg t .histDistinct == 0 && readReg t (.palette 1) == 0 && !t.irq) = true := by
  decide +kernel

theorem test_ill1_reserved_opcode :
    statusAfter (step (State.reset.withFetchWord 32 8)) 0x00080106 = true := by decide +kernel

theorem test_ill2_immediate_on_accum :
    after (step (acc1.withFetchWord 32 0x00010002)) (fun t =>
      readReg t .status == 0x00020106 && t.hist == []) = true := by decide +kernel

theorem test_clr1 :
    after (exec .histClear (withPalCount 3 ext1)) (fun t =>
      t.hist == [] && readReg t .histDistinct == 0 && readReg t .palCount == 3) = true := by
  decide +kernel

theorem test_acc1 :
    after (exec .histAccum acc1) (fun t =>
      t.hist == [⟨blue, 1⟩, ⟨red, 2⟩] && readReg t .histDistinct == 2) = true := by
  decide +kernel

theorem test_acc4_last_pixel_of_memory :
    after (exec .histAccum (withRegions 0xFFFFFFF8 0 1
        (withBytes 0xFFFFFFF8 [0x10, 0, 0, 0, 0, 0, 0xFF, 0xFF] ext1))) (fun t =>
      t.hist == [⟨c3, 3⟩, ⟨c1, 4⟩, ⟨c2, 5⟩]) = true := by decide +kernel

theorem test_ext1 :
    after (exec (.palExtract 256) ext1) (fun t =>
      readReg t (.palette 0) == 0x200000 && readReg t (.palette 1) == 0x080000 &&
        readReg t (.palette 2) == 0x100000 && readReg t (.palette 3) == 0 &&
        readReg t .palCount == 3 && t.hist == []) = true := by decide +kernel

theorem test_ext5_alpha_breaks_the_tie :
    after (exec (.palExtract 1) (withHist [⟨⟨0x1234, 0x5678, 0x9ABC, 0⟩, 1⟩,
        ⟨⟨0x1234, 0x5678, 0x9ABC, 1⟩, 2⟩] State.reset)) (fun t =>
      readReg t (.palette 0) == 0x12569A && readReg t (.palette 1) == 0 &&
        readReg t .palCount == 1) = true := by decide +kernel

theorem test_nea1 :
    after (exec .mapNearest nea1) (fun t =>
      t.results.resultIndex == 0 && t.results.resultDist == 300) = true := by decide +kernel

theorem test_nea6_duplicate_entry :
    after (exec .mapNearest (withQuery 0x09000900 0x09000000
        (withPalette [⟨5, 5, 5⟩, ⟨9, 9, 9⟩, ⟨9, 9, 9⟩] State.reset))) (fun t =>
      t.results.resultIndex == 1 && t.results.resultDist == 0) = true := by decide +kernel

theorem test_qua1 :
    after (exec .mapQuantize (quaAt 0x2000 2)) (fun t =>
      t.mem.readBytes 0x1FFF 4 == [0, 1, 0, 0] && t.results == ResultRegs.reset) = true := by
  decide +kernel

theorem test_qua6_end_of_memory :
    after (exec .mapQuantize (quaAt 0xFFFFFFFE 2)) (fun t =>
      t.mem.readBytes 0xFFFFFFFE 2 == [1, 0]) = true := by decide +kernel

theorem test_enc1 :
    after (exec .sagEncode enc1) (fun t =>
      t.mem.readBytes 0x3000 18 ==
        [0x53, 0x41, 0x47, 1, 0, 2, 0, 2, 0, 2, 0, 0x64, 0, 0, 0xFF, 0xFF, 0, 0] &&
      t.mem.readBytes (0x3000 + 780) 12 == s1Frames &&
      t.results.outLen == 792 && t.results.frameDelayMs == 100 && t.results.hdrVersion == 1) =
      true := by decide +kernel

theorem test_enc2_partial_block :
    after (exec .sagEncode enc2) (fun t =>
      t.mem.readBytes (0x3000 + 780) 22 ==
        [0, 0, 1, 2, 3, 4, 5, 6, 7, 0, 8, 0xFF, 0, 1, 2, 3, 4, 5, 6, 7, 0x80, 8] &&
      t.results.outLen == 802) = true := by decide +kernel

theorem test_dec1 :
    after (exec .sagDecode dec1) (fun t =>
      t.mem.readBytes 0x4000 8 == [1, 1, 0, 0, 1, 0, 1, 0] &&
      readReg t (.palette 0) == 0xFF && readReg t (.palette 1) == 0xFF0000 &&
      [t.operands.palCount, t.operands.width, t.operands.height, t.operands.frameCount,
        t.operands.delay, t.results.frameDelayMs, t.results.outLen] ==
        [256, 2, 2, 2, 10, 100, 792]) = true := by decide +kernel

theorem test_dec8_delay_rounds_down :
    after (exec .sagDecode (decAt (stream 0x47 0 105 s1Frames) 800 0x4000)) (fun t =>
      t.operands.delay == 10 && t.results.frameDelayMs == 105 && t.results.outLen == 792) =
      true := by decide +kernel

/-- REG-1 and REG-2: `wr STATUS` on `0x0008_0106`. -/
theorem test_reg1_reg2_status_write :
    let s : State := { State.reset with status := ⟨false, true, true, false, .illegalCommand, 8⟩ }
    s.status.word = 0x00080106#32 ∧ readReg (writeReg s .status 4) .status = 0x00080002#32 ∧
      readReg (writeReg s .status 0xE) .status = 0x00080000#32 := by decide +kernel

/-- REG-3 and REG-4: writes while busy. -/
theorem test_reg3_reg4_busy_writes :
    let s := issued 0 State.reset
    readReg (writeReg s .palCount 9) .palCount = 0 ∧
      (writeReg s .palCount 9).status.overrun = true ∧
      readReg (writeReg s .intEn 4) .intEn = 4 := by decide +kernel

/-- REG-5: an error with `ERR_IE` raises `IRQ`. -/
theorem test_reg5_irq :
    State.irq { State.reset with
      intEn := 2, status := ⟨false, true, true, false, .illegalCommand, 8⟩ } = true := by
  decide +kernel

/-- REG-8 and REG-9: unused bits are dropped. -/
theorem test_reg8_reg9_unused_bits :
    readReg (writeReg State.reset (.palette 3) 0xFF123456) (.palette 3) = 0x123456 ∧
      readReg (writeReg State.reset .intEn 0xFFFFFFFF) .intEn = 7 := by decide +kernel

/-- REG-11: issue keeps `OVERRUN`. -/
theorem test_reg11_issue :
    let s : State := { State.reset with status := ⟨false, true, true, true, .illegalCommand, 8⟩ }
    readReg (writeReg s .cmd 0) .status = 0x00000009#32 ∧
      statusAfter (step (writeReg s .cmd 0)) 0x0000000A = true := by decide +kernel

/-- P4, schedule (b): a second `CMD` write while busy is dropped. -/
theorem test_p4_overrun :
    statusAfter (step (withHost [.host] (wr .cmd 0) (issued 0 State.reset))) 0x00000009 = true := by
  decide +kernel

/-- P5: a host write into the source of a pending `ENCODE` sets `HAZARD`, one after completion does not. -/
theorem test_p5_hazard :
    after (step (withHost [.host] (mb 0x2000 [7]) (issued 6 enc1))) (fun t => t.hazard) = true ∧
      after (step (withHost [.host] (mb 0x2000 [7]) enc1)) (fun t =>
        !t.hazard && t.mem.read 0x2000 == 7) = true := by decide +kernel

/-- A hardware reset of a busy block: idle, every register 0, the source unchanged (R291, R292). -/
theorem test_hardware_reset_while_busy :
    after (step (withHost [.reset] [] (issued 6 enc1))) (fun t =>
      readReg t .status == 0 && readReg t .width == 0 && t.latch == 0 && t.draws == 792) = true := by
  decide +kernel

/-- P2: the pseudo-instructions `setq` and `setpal` as the writes they expand to. -/
theorem test_p2_pseudo_instructions :
    setq ⟨0x0A0A, 0x0A0B, 0x0A0C, 0xFFFF⟩ =
        [.wr 0x034 4 0x0A0A0A0B, .wr 0x038 4 0x0A0CFFFF] ∧
      setpal 1 ⟨0x11, 0x22, 0x33⟩ = [.wr 0x404 4 0x00112233] ∧ Machine.ack = [HostStmt.wr 0x008 4 0xE] ∧
      Machine.run .mapNearest = some [.wr 0x004 4 4, .wait] ∧
      cmd (.palExtract (-1)) = some [.wr 0x004 4 0xFFFF0003] ∧ cmd (.palExtract 40000) = none ∧
      Machine.run (.palExtract 32768) = none ∧ mr 0x5000 2 = [.loadByte 0x5000, .loadByte 0x5001] ∧
      rd .outLen = [.rd 0x050 4] := by decide +kernel

/-! ### Witnesses of the obligations' hypotheses -/

theorem witness_DecodeOfEncodeIsTheCommand :
    (Instr.palExtract (-32768)).wellFormed = true ∧ (Instr.palExtract 32767).wellFormed = true ∧
      decode (encode (.palExtract 32767)) = .ok (.palExtract 32767) := by decide

theorem witness_EncodeOfDecodeIsTheWord :
    decode 0x80000003#32 = .ok (.palExtract (-32768)) := by decide

/-- Both clauses: a legal word, and an illegal one in a busy block. -/
theorem witness_LegalWordsAreThoseOfTheMap :
    (∃ i, decode 0x0F#32 = .ok i) ∧ (¬ ∃ i, decode 0x0E#32 = .ok i) ∧
      (issued 0x0E State.reset).status.busy = true ∧
      (issued 0x0E State.reset).latch = 0x0E#32 := by
  refine ⟨⟨.softReset, by decide⟩, ?_, by decide +kernel, by decide +kernel⟩
  rintro ⟨i, h⟩
  have : decode 0x0E#32 = .error (.reservedOpcode 0x0E) := by decide
  rw [this] at h
  cases h

theorem witness_DecodedCommandHasOneMatchingRow :
    decode 0x00000007#32 = .ok .sagDecode ∧
      ∃ row ∈ opcodeMap, rowMatches row 0x00000007#32 = true :=
  ⟨by decide, ⟨"sag.decode", 0x00000007#32, 0xFFFFFFFF#32⟩, by decide, by decide⟩

/-- At both ends of the immediate's range and around zero. -/
theorem witness_ExtractImmediateIsSigned :
    decode 0x80000003#32 = .ok (.palExtract (-32768)) ∧ decode 0x7FFF0003#32 = .ok (.palExtract 32767) ∧
      decode 0xFFFF0003#32 = .ok (.palExtract (-1)) ∧ decode 0x00000003#32 = .ok (.palExtract 0) := by
  decide

theorem witness_AssemblerEncodesOrRefuses :
    assemble (.palExtract (-32768)) = some 0x80000003#32 ∧
      assemble (.palExtract 32767) = some 0x7FFF0003#32 ∧
      assemble (.palExtract (-32769)) = none ∧ assemble (.palExtract 32768) = none ∧
      assemble .nop = some 0#32 := by decide

/-- For a command: past the end of the schedule, and on the engine's turn. -/
theorem witness_EngineStepRunsTheDecodedCommand :
    let s := issued 0x01000003 ext1
    let u := withHost [.engine, .host] [] s
    s.status.busy = true ∧ decode s.latch = .ok (.palExtract 256) ∧ s.turns = [] ∧
      u.status.busy = true ∧ decode u.latch = .ok (.palExtract 256) ∧
      u.turns = .engine :: [.host] := by decide +kernel

/-- For an illegal word: past the end of the schedule, and on the engine's turn. -/
theorem witness_EngineStepRunsTheDecodedCommand_illegal :
    let s := issued 0x08 ext1
    let u := withHost [.engine, .host] [] s
    s.status.busy = true ∧ decode s.latch = .error (.reservedOpcode 8) ∧ s.turns = [] ∧
      statusAfter (step s) 0x00080106 = true ∧
      u.status.busy = true ∧ decode u.latch = .error (.reservedOpcode 8) ∧
      u.turns = .engine :: [.host] ∧ statusAfter (step u) 0x00080106 = true ∧
      after (step u) (fun t => t.turns == [.host]) = true := by decide +kernel

theorem witness_FetchWordStepRunsTheCommand :
    decode 0x00000002#32 = .ok .histAccum ∧
      statusAfter (step (acc1.withFetchWord 32 2)) 0x00020002 = true := by decide +kernel

theorem witness_IllegalWordCompletesWithError :
    decode 0x00000008#32 = .error (.reservedOpcode 8) ∧
      statusAfter (complete (issued 8 ext1)) 0x00080106 = true := by decide +kernel

/-- Both clauses: an idle block and a busy one. -/
theorem witness_IssueLatchesTheWord :
    State.reset.status.busy = false ∧ (issued 0 State.reset).status.busy = true := by decide +kernel

theorem witness_FailedCommandChangesOnlyStatus :
    after (exec .mapNearest State.reset) (fun t => t.status.error) = true := by decide +kernel

theorem witness_PendingCommandCompletesUnderEverySchedule :
    (withHost [.host, .host] [] (issued 0 State.reset)).script = [] := by decide +kernel

theorem witness_OperandsAreHeldWhileBusy :
    let s := withHost [.host] (wr .palCount 9) (issued 4 nea1)
    s.status.busy = true ∧ after (step s) (fun t => t.status.busy) = true := by decide +kernel

theorem witness_CommandsWriteOnlyWhatTheMapSays :
    after (exec .sagEncode enc1) (fun t => !t.status.error) = true := by decide +kernel

theorem witness_EveryStepKeepsLegalStates :
    State.legal (issued 2 acc1) ∧ after (step (issued 2 acc1)) (fun t => t.hist.length == 2) = true ∧
      State.legal (issued 3 ext1) := by decide +kernel

theorem witness_ResetStateIsLegal : platformLegal (platformOf true false 1) := by decide +kernel

theorem witness_EveryStepKeepsTheParameters :
    after (step (issued 0xF enc1)) (fun t => t.platform == Platform.reference) = true := by
  decide +kernel

theorem witness_HazardIsSticky :
    after (step (withHost [.reset] [] { enc1 with hazard := true })) (fun t => t.hazard) = true := by
  decide +kernel

theorem witness_HistAccumCountsThePixels :
    Histogram.wf acc1.hist ∧ pixelsReady acc1 ∧ distinctAfter acc1 ≤ acc1.platform.histCapacity ∧
      ∀ c, Histogram.countOf acc1.hist c + (inputColours acc1).count c ≤ 281474976710655 := by
  refine ⟨by decide +kernel, by decide +kernel, by decide +kernel, fun c => ?_⟩
  have hc : (inputColours acc1).count c ≤ (inputColours acc1).length := List.count_le_length
  have hl : (inputColours acc1).length = 3 := by decide +kernel
  have hz : Histogram.countOf acc1.hist c = 0 := rfl
  omega

/-- Each clause, at the edge of its range: ACC-5 one pixel past the end of memory, an unreadable source,
ACC-3 one colour over the capacity, and ACC-7 one above the greatest count. -/
theorem witness_HistAccumRaisesItsErrorsInOrder_range :
    let s := withRegions 0xFFFFFFF8 0 2 State.reset
    Histogram.wf s.hist ∧ ¬ inRangeAt s.operands.srcAddr.toNat (8 * s.operands.pixCount.toNat) ∧
      statusAfter (step (issued 2 s)) 0x00020206 = true := by decide +kernel
theorem witness_HistAccumRaisesItsErrorsInOrder_bus :
    let s := onPlatform false true 1 acc1
    inRangeAt s.operands.srcAddr.toNat (8 * s.operands.pixCount.toNat) ∧
      ¬ admittedAt s.platform s.operands.srcAddr.toNat (8 * s.operands.pixCount.toNat) .read ∧
      statusAfter (step (issued 2 s)) 0x00020306 = true := by decide +kernel
theorem witness_HistAccumRaisesItsErrorsInOrder_full :
    let s := onPlatform true true 1 acc1
    Histogram.wf s.hist ∧ pixelsReady s ∧ s.platform.histCapacity < distinctAfter s ∧
      statusAfter (step (issued 2 s)) 0x00023106 = true := by decide +kernel
theorem witness_HistAccumRaisesItsErrorsInOrder_overflow :
    let s := withHist [⟨red, 281474976710654⟩] acc1
    Histogram.wf s.hist ∧ pixelsReady s ∧ distinctAfter s ≤ s.platform.histCapacity ∧
      281474976710655 < Histogram.countOf s.hist red + (inputColours s).count red ∧
      statusAfter (step (issued 2 s)) 0x00023206 = true := by decide +kernel

theorem witness_CountingIgnoresOrderAndSplit :
    Histogram.wf ext1.hist ∧ List.Perm [red, blue] [blue, red] := by
  exact ⟨by decide +kernel, List.Perm.swap _ _ _⟩

theorem witness_PalExtractWritesTheSortedPalette :
    Histogram.wf ext1.hist ∧ ext1.hist.length ≤ 256 ∧
      min (Int.toNat 256) manyColours.hist.length ≤ 256 := by decide +kernel

/-- Both clauses, where they meet: 257 colours under `#-1` and `#257`, under `#256`, and 3 colours. -/
theorem witness_PalExtractRaisesBeyondTheRam :
    256 < manyColours.hist.length ∧
      statusAfter (step (issued 0xFFFF0003 manyColours)) 0x00032106 = true ∧
      statusAfter (step (issued 0x01010003 manyColours)) 0x00032106 = true ∧
      ¬ (((256 : Int) < 0 ∨ (256 : Int) < 256) ∧ 256 < manyColours.hist.length) ∧
      statusAfter (step (issued 0x01010003 ext1)) 0x00030002 = true := by decide +kernel

theorem witness_PaletteCountIsCapped :
    after (exec (.palExtract 2) ext1) (fun t => !t.status.error && t.operands.palCount == 2) = true ∧
      after (exec (.palExtract (-1)) ext1) (fun t => !t.status.error && t.operands.palCount == 3) =
        true := by decide +kernel

/-- At both ends of the range of `PAL_COUNT`. -/
theorem witness_NearestFindsTheFirstClosestEntry :
    paletteReady (withPalCount 1 nea1) ∧ paletteReady (withPalCount 256 nea1) := by decide +kernel

theorem witness_NearestRaisesItsErrorsInOrder :
    256 < (withPalCount 257 nea1).operands.palCount.toNat ∧
      statusAfter (step (issued 4 (withPalCount 257 nea1))) 0x00042106 = true ∧
      (withPalCount 0 nea1).operands.palCount.toNat = 0 ∧
      statusAfter (step (issued 4 (withPalCount 0 nea1))) 0x00043006 = true := by decide +kernel

theorem witness_SingleEntryPaletteAnswersIndexZero :
    (withPalCount 1 nea1).operands.palCount = 1#32 := by decide +kernel

theorem witness_NearestIgnoresLowBytesAndAlpha :
    let rg := 0x0AFF0A00#32
    let ba := 0x0A771234#32
    paletteReady nea1 ∧ rg.extractLsb' 24 8 = nea1.operands.queryRG.extractLsb' 24 8 ∧
      rg.extractLsb' 8 8 = nea1.operands.queryRG.extractLsb' 8 8 ∧
      ba.extractLsb' 24 8 = nea1.operands.queryBA.extractLsb' 24 8 := by decide +kernel

/-- Also at the end of memory and right after the source. -/
theorem witness_QuantizeWritesOneIndexPerPixel :
    quantizeReady (quaAt 0x2000 2) ∧ quantizeReady (quaAt 0xFFFFFFFE 2) ∧
      quantizeReady (quaAt 0x1010 2) := by decide +kernel

/-- Every clause: `PAL_COUNT` 257 and 0, each region out of range, each not admitted, and an overlap of the
last source byte. -/
theorem witness_QuantizeRaisesItsErrorsInOrder_palette :
    256 < (withPalCount 257 (quaAt 0x2000 2)).operands.palCount.toNat ∧
      statusAfter (step (issued 5 (withPalCount 257 (quaAt 0x2000 2)))) 0x00052106 = true ∧
      (withPalCount 0 (quaAt 0x2000 0)).operands.palCount.toNat = 0 ∧
      statusAfter (step (issued 5 (withPalCount 0 (quaAt 0x2000 0)))) 0x00053006 = true := by
  decide +kernel
theorem witness_QuantizeRaisesItsErrorsInOrder_range :
    paletteReady (quaAt 0xFFFFFFFF 2) ∧ ¬ inRangeAt 0xFFFFFFFF 2 ∧
      statusAfter (step (issued 5 (quaAt 0xFFFFFFFF 2))) 0x00050206 = true := by decide +kernel
theorem witness_QuantizeRaisesItsErrorsInOrder_bus :
    let s := onPlatform true false 1 (quaAt 0x2000 2)
    let u := onPlatform false true 1 (quaAt 0x2000 2)
    paletteReady s ∧ inRangeAt 0x1000 16 ∧ inRangeAt 0x2000 2 ∧
      ¬ admittedAt s.platform 0x2000 2 .write ∧ ¬ admittedAt u.platform 0x1000 16 .read ∧
      statusAfter (step (issued 5 s)) 0x00050306 = true ∧
      statusAfter (step (issued 5 u)) 0x00050306 = true := by decide +kernel
theorem witness_QuantizeRaisesItsErrorsInOrder_overlap :
    let s := quaAt 0x100F 2
    paletteReady s ∧ inRangeAt 0x1000 16 ∧ inRangeAt 0x100F 2 ∧
      admittedAt s.platform 0x1000 16 .read ∧ admittedAt s.platform 0x100F 2 .write ∧
      overlapAt 0x1000 16 0x100F 2 ∧ statusAfter (step (issued 5 s)) 0x00050406 = true := by
  decide +kernel

theorem witness_QuantizedByteDependsOnItsPixelOnly :
    let s := quaAt 0x2000 2
    let u := withRegions 0x1008 0x3000 1 s
    quantizeReady s ∧ quantizeReady u ∧ 1 < s.operands.pixCount.toNat ∧
      0 < u.operands.pixCount.toNat ∧
      pixelAt u.mem (u.operands.srcAddr.toNat + 8 * 0) =
        pixelAt s.mem (s.operands.srcAddr.toNat + 8 * 1) := by decide +kernel

/-- ENC-1, ENC-2, and ENC-4 with no frame. -/
theorem witness_EncodeWritesTheHeader :
    encodeReady enc1 ∧ encodeReady enc2 ∧ encodeReady (encAt 2 2 0 10 0x3000) := by decide +kernel

theorem witness_EncodeWritesTheFrameData :
    encodeReady enc2 ∧ 1 < enc2.operands.frameCount.toNat ∧ 0 < enc2.operands.height.toNat ∧
      1 < (enc2.operands.width.toNat + 7) / 8 ∧ 8 < enc2.operands.width.toNat := by decide +kernel

/-- Every clause, at the edge of its range: ENC-5, ENC-6, ENC-14, ENC-10, ENC-8, ENC-13, ENC-12. -/
theorem witness_EncodeRaisesItsErrorsInOrder_dim :
    [encAt 0 2 2 10 0x3000, encAt 2 0 2 10 0x3000, encAt 65536 2 2 10 0x3000,
      encAt 2 65536 2 10 0x3000, encAt 2 2 65536 10 0x3000].all (fun s =>
        !decide (1 ≤ s.operands.width.toNat ∧ s.operands.width.toNat ≤ 65535 ∧
          1 ≤ s.operands.height.toNat ∧ s.operands.height.toNat ≤ 65535 ∧
          s.operands.frameCount.toNat ≤ 65535) &&
        statusAfter (step (issued 6 s)) 0x00062006) = true := by decide +kernel
theorem witness_EncodeRaisesItsErrorsInOrder_palette :
    256 < (withPalCount 257 enc1).operands.palCount.toNat ∧
      statusAfter (step (issued 6 (withPalCount 257 enc1))) 0x00062106 = true := by decide +kernel
theorem witness_EncodeRaisesItsErrorsInOrder_delay :
    65535 < (encAt 2 2 2 6554 0x3000).operands.delay.toNat * 10 ∧
      statusAfter (step (issued 6 (encAt 2 2 2 6554 0x3000))) 0x00062206 = true := by decide +kernel
theorem witness_EncodeRaisesItsErrorsInOrder_range :
    let s := encAt 2 2 2 10 0xFFFFFCE9
    imageReady s ∧ inRangeAt 0x2000 (encodeSrcLen s) ∧ ¬ inRangeAt 0xFFFFFCE9 (encodeDstLen s) ∧
      statusAfter (step (issued 6 s)) 0x00060206 = true := by decide +kernel
theorem witness_EncodeRaisesItsErrorsInOrder_bus :
    let s := onPlatform true false 1 enc1
    let u := onPlatform false true 1 enc1
    imageReady s ∧ inRangeAt 0x2000 (encodeSrcLen s) ∧ inRangeAt 0x3000 (encodeDstLen s) ∧
      ¬ admittedAt s.platform 0x3000 (encodeDstLen s) .write ∧
      ¬ admittedAt u.platform 0x2000 (encodeSrcLen u) .read ∧
      statusAfter (step (issued 6 s)) 0x00060306 = true ∧
      statusAfter (step (issued 6 u)) 0x00060306 = true := by decide +kernel
theorem witness_EncodeRaisesItsErrorsInOrder_overlap :
    let s := encAt 2 2 2 10 0x2007
    imageReady s ∧ inRangeAt 0x2000 (encodeSrcLen s) ∧ inRangeAt 0x2007 (encodeDstLen s) ∧
      admittedAt s.platform 0x2000 (encodeSrcLen s) .read ∧
      admittedAt s.platform 0x2007 (encodeDstLen s) .write ∧
      overlapAt 0x2000 (encodeSrcLen s) 0x2007 (encodeDstLen s) ∧
      statusAfter (step (issued 6 s)) 0x00060406 = true := by decide +kernel

/-- DEC-1, and DEC-13 with the destination right after the stream. -/
theorem witness_DecodeWritesFramesPaletteAndHeader :
    decodeReady dec1 ∧ decodeReady (decAt s1 792 0x3318) ∧ (inputHeader dec1).frameCount = 2 ∧
      (inputHeader dec1).height = 2 ∧ (inputHeader dec1).width = 2 := by decide +kernel

/-- Every clause: DEC-14, DEC-2, an unreadable header, DEC-5, DEC-3, unreadable frames, a destination out of
range, one that is not writable, DEC-12. -/
theorem witness_DecodeRaisesItsErrorsInOrder_source :
    let s := withSrcLen 0x200 (withRegions 0xFFFFFF00 0x4000 0 State.reset)
    ¬ inRangeAt 0xFFFFFF00 0x200 ∧ statusAfter (step (issued 7 s)) 0x00070206 = true := by
  decide +kernel
theorem witness_DecodeRaisesItsErrorsInOrder_header :
    inRangeAt 0x3000 779 ∧ statusAfter (step (issued 7 (decAt s1 779 0x4000))) 0x00071006 = true ∧
      ¬ admittedAt (onPlatform false true 1 dec1).platform 0x3000 780 .read ∧
      statusAfter (step (issued 7 (onPlatform false true 1 dec1))) 0x00070306 = true := by
  decide +kernel
theorem witness_DecodeRaisesItsErrorsInOrder_signature :
    let s := decAt (stream 0x46 0 0x64 s1Frames) 792 0x4000
    inRangeAt 0x3000 792 ∧ admittedAt s.platform 0x3000 780 .read ∧ ¬ inputSigned s ∧
      statusAfter (step (issued 7 s)) 0x00071106 = true := by decide +kernel
theorem witness_DecodeRaisesItsErrorsInOrder_truncated :
    let s := decAt s1 791 0x4000
    inRangeAt 0x3000 791 ∧ admittedAt s.platform 0x3000 780 .read ∧ inputSigned s ∧
      791 < inputNeed s ∧ statusAfter (step (issued 7 s)) 0x00071206 = true := by decide +kernel
theorem witness_DecodeRaisesItsErrorsInOrder_frames :
    let s : State := { dec1 with
      platform := { Platform.reference with windows := [⟨0x3000, 791, true, true⟩] } }
    admittedAt s.platform 0x3000 780 .read ∧ inputSigned s ∧ inputNeed s ≤ 792 ∧
      ¬ admittedAt s.platform (0x3000 + 780) (inputNeed s - 780) .read ∧
      statusAfter (step (issued 7 s)) 0x00070306 = true := by decide +kernel
theorem witness_DecodeRaisesItsErrorsInOrder_destination :
    let s := decAt s1 792 0xFFFFFFF9
    let u := onPlatform true false 1 dec1
    inputReady s ∧ ¬ inRangeAt 0xFFFFFFF9 (inputPixels s) ∧
      statusAfter (step (issued 7 s)) 0x00070206 = true ∧
      inputReady u ∧ inRangeAt 0x4000 (inputPixels u) ∧
      ¬ admittedAt u.platform 0x4000 (inputPixels u) .write ∧
      statusAfter (step (issued 7 u)) 0x00070306 = true := by decide +kernel
theorem witness_DecodeRaisesItsErrorsInOrder_overlap :
    let s := decAt s1 792 0x3317
    inputReady s ∧ inRangeAt 0x3317 (inputPixels s) ∧
      admittedAt s.platform 0x3317 (inputPixels s) .write ∧
      overlapAt 0x3000 (inputNeed s) 0x3317 (inputPixels s) ∧
      statusAfter (step (issued 7 s)) 0x00070406 = true := by decide +kernel

/-- DEC-10: every mask byte `FF`, the index bytes those of `S1`. -/
theorem witness_DecodeIgnoresMaskBytes :
    let mem := (decAt (stream 0x47 0 0x64
      [0xFF, 1, 1, 0xFF, 0, 0, 0xFF, 1, 0, 0xFF, 1, 0]) 792 0x4000).mem
    decodeReady dec1 ∧ (∀ j, j < 780 → mem.read (0x3000 + j) = dec1.mem.read (0x3000 + j)) ∧
      (∀ f, f < 2 → ∀ y, y < 2 → ∀ x, x < 2 →
        mem.read (0x3000 + indexOffset 2 2 f x y) = dec1.mem.read (0x3000 + indexOffset 2 2 f x y)) ∧
      mem ≠ dec1.mem := by decide +kernel

theorem witness_DecodeOfEncodeReturnsTheFrames :
    encodeReady enc1 ∧ 1 ≤ enc1.platform.delayUnitMs ∧
      admittedAt enc1.platform enc1.operands.dstAddr.toNat (encodeDstLen enc1) .read ∧
      inRangeAt (0x4000#32).toNat (encodeSrcLen enc1) ∧
      admittedAt enc1.platform (0x4000#32).toNat (encodeSrcLen enc1) .write ∧
      ¬ overlapAt enc1.operands.dstAddr.toNat (encodeDstLen enc1) (0x4000#32).toNat
        (encodeSrcLen enc1) := by decide +kernel

/-- Each clause at the edges of its offsets, idle. -/
theorem witness_RegisterWritesFollowTheMap_idle :
    let s := State.reset
    let writes := fun off => hostWrite off 4 0x12345678 s
    let same := fun (t : State) => t.operands == s.operands && t.results == s.results && t.status == s.status
    s.status.busy = false ∧ statusAfter (writes 0x004) 0x00780001 = true ∧
      statusAfter (writes 0x008) 0 = true ∧
      after (writes 0x00C) (fun t => t.intEn == 0) = true ∧
      after (writes 0x010) (fun t => t.operands.srcAddr == 0x12345678) = true ∧
      after (writes 0x038) (fun t => t.operands.queryBA == 0x12345678) = true ∧
      after (writes 0x000) same = true ∧
      after (writes 0x03C) same = true ∧
      after (writes 0x054) same = true ∧
      after (writes 0x3FC) same = true ∧
      after (writes 0x400) (fun t => t.palette.entry 0 == ⟨0x34, 0x56, 0x78⟩) = true ∧
      after (writes 0x7FC) (fun t => t.palette.entry 255 == ⟨0x34, 0x56, 0x78⟩) = true := by
  decide +kernel

/-- The clause of the dropped writes at the edges of its offsets, and the ignored ones, busy. -/
theorem witness_RegisterWritesFollowTheMap_busy :
    let s := issued 0 State.reset
    s.status.busy = true ∧
      [0x004, 0x010, 0x038, 0x400, 0x7FC].all (fun off =>
        after (hostWrite off 4 1 s) (fun t =>
          t.operands == s.operands && t.latch == 0 && readReg t .status == 0x9)) = true ∧
      [0x000, 0x03C, 0x3FC].all (fun off => statusAfter (hostWrite off 4 1 s) 1) = true := by
  decide +kernel

/-- Both clauses: accesses that are narrower, misaligned or outside, and those at both ends of the window. -/
theorem witness_OnlyAlignedWordAccessesReachRegisters :
    regAccess 0 2 = none ∧ regAccess 2 4 = none ∧ regAccess 0x800 4 = none ∧ regAccess 0 8 = none ∧
      regAccess 0 4 = some .id ∧ regAccess 0x7FC 4 = some (.palette 255) := by decide +kernel

theorem witness_HostStepRunsTheNextStatement :
    let s := withHost [] (rd .id) State.reset
    s.status.busy = false ∧ after (step s) (fun t => t.seen == [.reg 0 0x53414701]) = true ∧
      after (step (withHost [.host] [] State.reset)) (fun t => t.seen == [] && t.turns == []) = true ∧
      State.reset.turns = [] ∧ State.reset.script = [] ∧
      after (step (withHost [.host, .engine] (rd .id) s)) (fun t => t.turns == [.engine]) = true := by
  decide +kernel

theorem witness_RegisterReadsFollowTheMap :
    histLegal ext1 ∧ platformLegal ext1.platform ∧ readReg ext1 .histDistinct = 3#32 := by
  decide +kernel

/-- Idle, and busy with an address just before and just after the destination. -/
theorem witness_HardwareResetKeepsMemoryOutsideTheDestination :
    let s := withHost [.reset] [] (issued 6 enc1)
    s.turns = .reset :: [] ∧ decode s.latch = .ok .sagEncode ∧
      destOf s .sagEncode = some ⟨0x3000, 792⟩ ∧
      (withHost [.reset] [] enc1).status.busy = false := by decide +kernel

/-- Every destination region of that pending command leaves out the addresses next to it. -/
theorem witness_HardwareResetKeepsMemoryOutsideTheDestination_edges :
    let s := withHost [.reset] [] (issued 6 enc1)
    ∀ i r, decode s.latch = .ok i → destOf s i = some r →
      ¬ (r.addr ≤ 0x2FFF ∧ 0x2FFF < r.addr + r.len) ∧
        ¬ (r.addr ≤ 0x3318 ∧ 0x3318 < r.addr + r.len) := by
  intro s i r hi hr
  obtain ⟨-, hd, hdest, -⟩ := witness_HardwareResetKeepsMemoryOutsideTheDestination
  have hi' : i = .sagEncode := by
    have := hi.symm.trans hd
    cases this
    rfl
  subst hi'
  have := hr.symm.trans hdest
  cases this
  decide

/-- The clauses of hazard rule 1 at the edges of the regions: `HIST_ACCUM`, `QUANTIZE`, `ENCODE`. -/
theorem witness_HostStoreIntoPendingRegionsIsAHazard_commands :
    let hazardAt := fun (s : State) a => after (hostStore a 7 s) (fun t => t.hazard)
    decode 2#32 = .ok .histAccum ∧ hazardAt (issued 2 acc1) 0x1000 = true ∧
      hazardAt (issued 2 acc1) 0x1017 = true ∧ hazardAt (issued 2 acc1) 0x1018 = false ∧
      hazardAt acc1 0x1000 = false ∧ hazardAt { acc1 with hazard := true } 0 = true ∧
      decode 5#32 = .ok .mapQuantize ∧ hazardAt (issued 5 (quaAt 0x2000 2)) 0x100F = true ∧
      hazardAt (issued 5 (quaAt 0x2000 2)) 0x2001 = true ∧
      hazardAt (issued 5 (quaAt 0x2000 2)) 0x2002 = false ∧
      decode 6#32 = .ok .sagEncode ∧ hazardAt (issued 6 enc1) 0x2007 = true ∧
      hazardAt (issued 6 enc1) 0x2008 = false ∧ hazardAt (issued 6 enc1) 0x3317 = true ∧
      hazardAt (issued 6 enc1) 0x3318 = false := by decide +kernel

/-- The clauses of hazard rule 1 for `DECODE`, on both sides of `SRC_LEN = 780`, and for a command without a
region. -/
theorem witness_HostStoreIntoPendingRegionsIsAHazard_decode :
    let hazardAt := fun (s : State) a => after (hostStore a 7 s) (fun t => t.hazard)
    decode 7#32 = .ok .sagDecode ∧ hazardAt (issued 7 (decAt s1 779 0x4000)) 0x330A = true ∧
      hazardAt (issued 7 (decAt s1 779 0x4000)) 0x330B = false ∧
      hazardAt (issued 7 (decAt s1 779 0x4000)) 0x4000 = false ∧
      hazardAt (issued 7 (decAt s1 780 0x4000)) 0x4007 = true ∧
      hazardAt (issued 7 (decAt s1 780 0x4000)) 0x4008 = false ∧
      hazardAt (issued 4 nea1) 0 = false ∧ hazardAt (issued 8 nea1) 0 = false := by decide +kernel

/-- The clause for the source of any pending `DECODE`, at its last byte below `2^32`, with a header that
reaches past `2^32`; and hazard rule 2 in a region that is source and destination [log entry 28]. -/
theorem witness_HostStoreIntoPendingRegionsIsAHazard_header_past_memory :
    let s := issued 7 (withSrcLen 792 (withRegions 0xFFFFFF00 0x4000 0 State.reset))
    let both := issued 5 (quaAt 0x1008 2)
    s.status.busy = true ∧ decode s.latch = .ok .sagDecode ∧
      s.operands.srcAddr.toNat ≤ 0xFFFFFFFF ∧
      0xFFFFFFFF < s.operands.srcAddr.toNat + s.operands.srcLen.toNat ∧
      after (hostStore 0xFFFFFFFF 7 s) (fun t => t.hazard) = true ∧
      sourceOf both .mapQuantize = some ⟨0x1000, 16⟩ ∧ destOf both .mapQuantize = some ⟨0x1008, 2⟩ ∧
      after (hostLoad 0x1009 both) (fun t => t.hazard) = true := by decide +kernel

/-- Each clause: a refused immediate, accepted ones, and both ends of the palette. -/
theorem witness_PseudoInstructionsExpand :
    assemble (.palExtract 32768) = none ∧ assemble (.palExtract 32767) = some 0x7FFF0003#32 ∧
      setpal 0 ⟨1, 2, 3⟩ = [.wr 0x400 4 0x00010203] ∧
      setpal 255 ⟨1, 2, 3⟩ = [.wr 0x7FC 4 0x00010203] := by decide +kernel

/-- Both clauses of hazard rule 2: a source byte, an idle block, and a destination byte. -/
theorem witness_HostLoadFromPendingDestinationIsAHazard :
    let s := issued 5 (quaAt 0x2000 2)
    after (hostLoad 0x1000 s) (fun t => !t.hazard && t.seen == [.mem 0x1000 0xFF]) = true ∧
      s.status.busy = true ∧ decode s.latch = .ok .mapQuantize ∧
      destOf s .mapQuantize = some ⟨0x2000, 2⟩ ∧
      after (hostLoad 0x2001 s) (fun t => t.hazard) = true ∧
      after (hostLoad 0x2001 (quaAt 0x2000 2)) (fun t => !t.hazard) = true := by decide +kernel

/-- At the last bytes of memory. -/
theorem witness_MemoryReadsBackWhatWasWritten :
    Memory.wf enc1.mem ∧ 0xFFFFFFFE + ([1, 2] : List Byte).length ≤ 4294967296 := by decide +kernel

theorem witness_PixelIsFourBigEndianChannels :
    pixelAt acc1.mem 0x1010 = blue ∧ 2 < acc1.operands.pixCount.toNat := by decide +kernel

end Sys2Proof.Tests
end

section
/-!
PROOFS. The obligations of spec/00_scope.md: the distance of two palette entries.
-/
namespace Sys2Proof.Machine

/-- `squareDiff` is a natural number, so nothing is lost in `Int.toNat`: as an integer it is the square. -/
theorem squareDiff_cast (x y : Byte) : (squareDiff x y : Int) = ((x.toNat : Int) - y.toNat) ^ 2 := by
  unfold squareDiff
  rw [Int.toNat_of_nonneg (mul_self_nonneg _), sq]

/-- The distance, read as an integer, is the sum over the channels (00_scope.md R23). -/
theorem dist_cast (p q : Rgb8) :
    (dist p q : Int) = ((p.r.toNat : Int) - q.r.toNat) ^ 2 + ((p.g.toNat : Int) - q.g.toNat) ^ 2 +
      ((p.b.toNat : Int) - q.b.toNat) ^ 2 := by
  simp only [dist, Nat.cast_add, squareDiff_cast]

/-- Settles O30: the formula channel by channel, and `195075 < 2 ^ 18` for the width. -/
theorem distanceIsSquaredEuclidean : Obligations.DistanceIsSquaredEuclidean := by
  intro p q
  have hle : dist p q ≤ 195075 := dist_le p q
  exact ⟨dist_cast p q, hle, hle.trans_lt (by decide)⟩

end Sys2Proof.Machine
end

section
/-!
SUPPORT. The register window by kinds of registers (10_state.md R32, R58): which offsets hold the operands and
which ignore writes, what the `STATUS`, palette and operand fields read after a write, and one rule for a host
write to each kind.
-/
namespace Sys2Proof.Machine

/-! ### Kinds of registers -/

/-- The read-write operand registers (10_state.md R38 to R48). -/
inductive Reg.IsOperand : Reg → Prop
  | srcAddr : Reg.IsOperand .srcAddr
  | srcLen : Reg.IsOperand .srcLen
  | dstAddr : Reg.IsOperand .dstAddr
  | pixCount : Reg.IsOperand .pixCount
  | width : Reg.IsOperand .width
  | height : Reg.IsOperand .height
  | frameCount : Reg.IsOperand .frameCount
  | delay : Reg.IsOperand .delay
  | palCount : Reg.IsOperand .palCount
  | queryRG : Reg.IsOperand .queryRG
  | queryBA : Reg.IsOperand .queryBA

/-- The registers whose writes are ignored, busy or idle (10_state.md R58). -/
inductive Reg.IgnoresWrites : Reg → Prop
  | id : Reg.IgnoresWrites .id
  | resultIndex : Reg.IgnoresWrites .resultIndex
  | resultDist : Reg.IgnoresWrites .resultDist
  | histDistinct : Reg.IgnoresWrites .histDistinct
  | frameDelayMs : Reg.IgnoresWrites .frameDelayMs
  | hdrVersion : Reg.IgnoresWrites .hdrVersion
  | outLen : Reg.IgnoresWrites .outLen
  | reserved : Reg.IgnoresWrites .reserved

theorem regAtOffset_isOperand {off : Nat} (ha : off % 4 = 0) (hlo : 0x010 ≤ off) (hhi : off ≤ 0x038) :
    (regAtOffset off).IsOperand := by
  obtain ⟨k, rfl⟩ := Nat.dvd_of_mod_eq_zero ha
  have hk : 4 ≤ k := by omega
  have hk' : k ≤ 14 := by omega
  interval_cases k <;> constructor

/-- The result registers and the reserved offsets lie between the operands and the palette. -/
theorem regAtOffset_ignoresWrites {off : Nat} (ha : off % 4 = 0) (hlo : 0x03C ≤ off)
    (hhi : off < 0x400) : (regAtOffset off).IgnoresWrites := by
  by_cases hres : 0x054 ≤ off
  · rw [regAtOffset_reserved hres hhi]
    exact .reserved
  · obtain ⟨k, rfl⟩ := Nat.dvd_of_mod_eq_zero ha
    have hk : 15 ≤ k := by omega
    have hk' : k ≤ 20 := by omega
    interval_cases k <;> constructor

/-! ### `STATUS` and the palette -/

/-- Write-one-to-clear, field by field (10_state.md R36). -/
theorem Status.clearOnes_eq (st : Status) (v : Word) :
    st.clearOnes v =
      ⟨st.busy,
        if v.getLsbD 1 then false else st.done,
        if v.getLsbD 2 then false else st.error,
        if v.getLsbD 3 then false else st.overrun,
        if v.getLsbD 2 then .noError else st.errCode,
        st.lastOp⟩ := by
  simp [Status.clearOnes, Bool.and_comm]

theorem Status.word_reset : Status.reset.word = 0 := by decide

/-- Reads past the end of a palette RAM are black. -/
theorem PaletteRam.entry_of_le (pal : PaletteRam) {i : Nat} (h : 256 ≤ i) :
    pal.entry i = Rgb8.black := by
  simp [PaletteRam.entry, h]

/-! ### Operand registers -/

/-- The operand registers after a write of `v` to `r`; unchanged when `r` is none of them. -/
def OperandRegs.put (ops : OperandRegs) (r : Reg) (v : Word) : OperandRegs where
  srcAddr := if .srcAddr = r then v else ops.srcAddr
  srcLen := if .srcLen = r then v else ops.srcLen
  dstAddr := if .dstAddr = r then v else ops.dstAddr
  pixCount := if .pixCount = r then v else ops.pixCount
  width := if .width = r then v else ops.width
  height := if .height = r then v else ops.height
  frameCount := if .frameCount = r then v else ops.frameCount
  delay := if .delay = r then v else ops.delay
  palCount := if .palCount = r then v else ops.palCount
  queryRG := if .queryRG = r then v else ops.queryRG
  queryBA := if .queryBA = r then v else ops.queryBA

theorem readReg_put_same (s : State) {r : Reg} (v : Word) (hr : r.IsOperand) :
    readReg { s with operands := s.operands.put r v } r = v := by
  cases hr <;> rfl

theorem readReg_put_of_ne (s : State) {r q : Reg} (v : Word) (hne : q ≠ r) :
    readReg { s with operands := s.operands.put r v } q = readReg s q := by
  cases q with
  | srcAddr | srcLen | dstAddr | pixCount | width | height | frameCount | delay | palCount | queryRG
  | queryBA => exact if_neg hne
  | _ => rfl

/-! ### What a write does to each kind -/

theorem whenIdle_of_idle {s : State} (t : State) (h : s.status.busy = false) : whenIdle s t = t := by
  simp [whenIdle, h]

/-- The dropped write (10_state.md R58). -/
theorem whenIdle_of_busy {s : State} (t : State) (h : s.status.busy = true) :
    whenIdle s t = setOverrun s := by
  simp [whenIdle, h]

theorem writeReg_of_isOperand (s : State) {r : Reg} (v : Word) (hr : r.IsOperand) :
    writeReg s r v = whenIdle s { s with operands := s.operands.put r v } := by
  cases hr <;> rfl

theorem writeReg_of_ignoresWrites (s : State) {r : Reg} (v : Word) (hr : r.IgnoresWrites) :
    writeReg s r v = s := by
  cases hr <;> rfl

theorem hostWrite_aligned {off : Nat} (ha : off % 4 = 0) (hw : off < 0x800) (v : Word) (s : State) :
    hostWrite off 4 v s = .next (writeReg s (regAtOffset off) v) := by
  simp [hostWrite, regAccess_aligned ha hw]

/-- A busy block drops every write to `CMD`, to an operand register and to the palette, with only `OVERRUN` to
show for it (10_state.md R58). -/
theorem writeReg_of_busy {s : State} {off : Nat} (v : Word) (ha : off % 4 = 0)
    (hoff : off = 0x004 ∨ (0x010 ≤ off ∧ off ≤ 0x038) ∨ 0x400 ≤ off) (hb : s.status.busy = true) :
    writeReg s (regAtOffset off) v = setOverrun s := by
  rcases hoff with rfl | ⟨hlo, hhi⟩ | hpal
  · exact whenIdle_of_busy _ hb
  · rw [writeReg_of_isOperand s v (regAtOffset_isOperand ha hlo hhi), whenIdle_of_busy _ hb]
  · rw [regAtOffset_palette hpal]
    exact whenIdle_of_busy _ hb

end Sys2Proof.Machine
end

section
/-!
PROOFS. The obligations of spec/10_state.md: host writes to the registers, and what they read after reset.
-/
namespace Sys2Proof.Machine

/-- Settles O46: the model's masks `_ && !v[i]` are R36's cases. -/
theorem statusWriteClearsByOnes : Obligations.StatusWriteClearsByOnes := by
  intro s v
  rw [← Status.clearOnes_eq]
  rfl

/-- Settles O47: the offset fixes the kind of register, and the kind has one rule for its writes. -/
theorem registerWritesFollowTheMap : Obligations.RegisterWritesFollowTheMap := by
  intro s off v ha hw
  rw [hostWrite_aligned ha hw]
  refine ⟨?status, ?intEn, ?busy, fun hidle => ⟨?cmd, ?operand, ?palette⟩, ?ignored⟩
  case status =>
    rintro rfl
    exact congrArg _ (statusWriteClearsByOnes s v)
  case intEn =>
    rintro rfl
    rw [← BitVec.setWidth_eq_extractLsb' (by decide)]
    rfl
  case busy =>
    intro hoff hb
    rw [writeReg_of_busy v ha hoff hb]
    rfl
  case cmd =>
    rintro rfl
    exact congrArg _ (whenIdle_of_idle (issue v s) hidle)
  case operand =>
    intro hlo hhi
    have hop := regAtOffset_isOperand ha hlo hhi
    refine ⟨s.operands.put (regAtOffset off) v, ?_, fun r hr => readReg_put_of_ne s v hr,
      readReg_put_same s v hop⟩
    rw [writeReg_of_isOperand s v hop, whenIdle_of_idle _ hidle]
  case palette =>
    intro hpal
    have hi : (off - 0x400) / 4 < 256 := by omega
    refine ⟨s.palette.store ((off - 0x400) / 4) (wordRgb8 v), ?_, ?_, fun i hi' hne => ?_⟩
    · rw [regAtOffset_palette hpal]
      exact congrArg _ (whenIdle_of_idle _ hidle)
    · rw [PaletteRam.entry_store _ _ hi, if_pos rfl]
      rfl
    · rw [PaletteRam.entry_store _ _ hi', if_neg hne]
  case ignored =>
    rintro (rfl | ⟨hlo, hhi⟩)
    · rfl
    · rw [writeReg_of_ignoresWrites s v (regAtOffset_ignoresWrites ha hlo hhi)]

/-- After reset every palette register reads 0, one past the window's end included. -/
theorem resetOn_palette_entry (p : Platform) (i : Nat) :
    (State.resetOn p).palette.entry i = Rgb8.black := by
  by_cases hi : i < 256
  · exact PaletteRam.entry_replicate Rgb8.black hi
  · exact PaletteRam.entry_of_le _ (by omega)

theorem readReg_resetOn (p : Platform) {r : Reg} (hr : r ≠ .id) : readReg (State.resetOn p) r = 0 := by
  cases r with
  | id => exact absurd rfl hr
  | palette i =>
    rw [readReg, resetOn_palette_entry]
    rfl
  | status => exact Status.word_reset
  | _ => rfl

/-- Settles O54: register by register; no value reset gives depends on the platform. -/
theorem onlyIdReadsNonzeroAfterReset : Obligations.OnlyIdReadsNonzeroAfterReset := by
  intro p
  exact ⟨rfl, fun r hr => readReg_resetOn p hr, rfl, rfl, rfl,
    fun i _ => resetOn_palette_entry p i, rfl, rfl⟩

end Sys2Proof.Machine
end

section
/-!
PROOFS. The obligations of spec/20_memory.md: the pixels of memory.
-/
namespace Sys2Proof.Machine

/-- Two bytes joined are the big-endian value of R20. -/
theorem append_toNat_eq_be16 (hi lo : Byte) : (hi ++ lo).toNat = be16 hi lo := by
  rw [BitVec.toNat_append, ← Nat.shiftLeft_add_eq_or_of_lt lo.isLt, Nat.shiftLeft_eq]
  rfl

/-- A channel is the big-endian value at its address (20_memory.md R83, R84). -/
theorem channelAt_toNat (m : Memory) (a : Nat) : (channelAt m a).toNat = m.readBe16 a :=
  append_toNat_eq_be16 _ _

theorem pixelArray_getElem? (m : Memory) (base : Nat) {n k : Nat} (hk : k < n) :
    (pixelArray m base n)[k]? = some (pixelAt m (base + 8 * k)) := by
  rw [pixelArray, List.getElem?_map, List.getElem?_range hk, Option.map_some]

/-- Settles O59: each channel is a `readBe16`, and an array is read entry by entry. -/
theorem pixelIsFourBigEndianChannels : Obligations.PixelIsFourBigEndianChannels := by
  intro m a
  exact ⟨channelAt_toNat m a, channelAt_toNat m (a + 2), channelAt_toNat m (a + 4),
    channelAt_toNat m (a + 6), fun base _ _ hk => pixelArray_getElem? m base hk⟩

end Sys2Proof.Machine
end

section
/-!
PROOFS. The obligations of spec/30_encoding.md: which words are legal, and what the immediate of
`pal.extract` means.
-/
namespace Sys2Proof.Machine

/-! ### Which words decode -/

/-- The opcodes of R112 without an immediate. -/
theorem plainCommand_isSome_iff (o : Byte) :
    (∃ i, plainCommand o = some i) ↔
      o ∈ [0x00#8, 0x01#8, 0x02#8, 0x04#8, 0x05#8, 0x06#8, 0x07#8, 0x0F#8] := by
  constructor
  · rintro ⟨i, h⟩
    rcases plainCommand_cases h with ⟨rfl, -⟩ | ⟨rfl, -⟩ | ⟨rfl, -⟩ | ⟨rfl, -⟩ | ⟨rfl, -⟩ |
      ⟨rfl, -⟩ | ⟨rfl, -⟩ | ⟨rfl, -⟩ <;> decide
  · intro h
    simp only [List.mem_cons, List.not_mem_nil, or_false] at h
    rcases h with rfl | rfl | rfl | rfl | rfl | rfl | rfl | rfl <;> exact ⟨_, rfl⟩

/-- The row of `pal.extract` takes every immediate. -/
theorem decode_of_extract {w : Word} (hr : reservedField w = 0) (ho : opcodeField w = 0x03) :
    decode w = .ok (.palExtract (maxColorsOf (immField w))) := by
  simp [decode, hr, ho]

/-- The rows without an immediate take the immediate 0. -/
theorem decode_of_plain {w : Word} {i : Instr} (hr : reservedField w = 0) (him : immField w = 0)
    (hp : plainCommand (opcodeField w) = some i) : decode w = .ok i := by
  have ho : opcodeField w ≠ 0x03 := by
    intro ho
    rw [ho] at hp
    cases hp
  rw [decode, if_neg (not_not.2 hr), if_neg ho, hp]
  exact if_pos him

/-- The legal words, field by field (30_encoding.md R115). -/
theorem decode_isOk_iff (w : Word) :
    (∃ i, decode w = .ok i) ↔
      ((∃ i, plainCommand (opcodeField w) = some i) ∧ immField w = 0 ∧ reservedField w = 0) ∨
        (opcodeField w = 0x03 ∧ reservedField w = 0) := by
  constructor
  · rintro ⟨i, h⟩
    obtain ⟨hr, ⟨ho, -⟩ | ⟨-, him, hp⟩⟩ := decode_cases h
    · exact .inr ⟨ho, hr⟩
    · exact .inl ⟨⟨i, hp⟩, him, hr⟩
  · rintro (⟨⟨i, hp⟩, him, hr⟩ | ⟨ho, hr⟩)
    · exact ⟨i, decode_of_plain hr him hp⟩
    · exact ⟨_, decode_of_extract hr ho⟩

/-- A word that is no command completes with `ILLEGAL_COMMAND` (60_exceptions.md R261). -/
theorem complete_of_illegal {s : State} (h : ¬ ∃ i, decode s.latch = .ok i) :
    complete s = .next (raiseError .illegalCommand s) := by
  unfold complete pendingCommand
  cases hd : decode s.latch with
  | ok i => exact absurd ⟨i, hd⟩ h
  | error e => rfl

/-- Settles O3: the decoder's two ways to accept are R115's two bullets, and an illegal word takes the
completion that writes `STATUS` alone. -/
theorem legalWordsAreThoseOfTheMap : Obligations.LegalWordsAreThoseOfTheMap := by
  intro w
  constructor
  · rw [upper_bits_zero_iff, ← plainCommand_isSome_iff]
    exact decode_isOk_iff w
  · rintro hw s - rfl
    exact complete_of_illegal hw

/-! ### The immediate of `pal.extract` -/

/-- `pal.extract` is decoded from its own row only, and its operand is `sext(IMM16)` (30_encoding.md R113). -/
theorem maxColors_of_decode {w : Word} {m : Int} (h : decode w = .ok (.palExtract m)) :
    m = maxColorsOf (immField w) := by
  obtain ⟨-, ⟨-, hi⟩ | ⟨-, -, hp⟩⟩ := decode_cases h
  · cases hi
    rfl
  · have hplain := plainCommand_cases hp
    simp at hplain

/-- The sign of `IMM16` is bit 31 of the word. -/
theorem immField_msb (w : Word) : (immField w).msb = w.getLsbD 31 := by
  simp [immField, BitVec.msb_eq_getLsbD_last]

/-- `sext(IMM16)`, by the sign. -/
theorem maxColorsOf_immField (w : Word) :
    maxColorsOf (immField w) =
      if w.getLsbD 31 then ((immField w).toNat : Int) - 65536 else ((immField w).toNat : Int) := by
  rw [maxColorsOf, BitVec.toInt_eq_msb_cond, immField_msb]
  rfl

theorem maxColorsOf_bounds (imm16 : Half) :
    -32768 ≤ maxColorsOf imm16 ∧ maxColorsOf imm16 ≤ 32767 :=
  ⟨BitVec.le_toInt imm16, Int.le_of_lt_add_one (BitVec.toInt_lt (x := imm16))⟩

/-- A negative `maxColors` takes every colour (30_encoding.md R113, 40_palette_extractor.md R150). -/
theorem extractCount_of_neg {m : Int} (h : m < 0) (distinct : Nat) :
    extractCount m distinct = distinct :=
  if_pos h

/-- Settles O5: the operand is the signed reading of `IMM16`, of which sign, range and the negative case are
each one lemma. -/
theorem extractImmediateIsSigned : Obligations.ExtractImmediateIsSigned := by
  intro w m h
  obtain rfl := maxColors_of_decode h
  obtain ⟨hlo, hhi⟩ := maxColorsOf_bounds (immField w)
  exact ⟨maxColorsOf_immField w, hlo, hhi, extractCount_of_neg⟩

end Sys2Proof.Machine
end

section
/-!
PROOFS. The obligations of spec/40_palette_extractor.md: how many colours `PAL_EXTRACT` takes.
-/
namespace Sys2Proof.Machine

/-! ### The number of colours an extraction takes -/

/-- A `maxColors` that is not negative is a cap (40_palette_extractor.md R150). -/
theorem extractCount_of_nonneg {m : Int} (h : 0 ≤ m) (distinct : Nat) :
    (extractCount m distinct : Int) = min m distinct := by
  rw [extractCount, if_neg (not_lt.2 h), Nat.cast_min, Int.toNat_of_nonneg h]

/-- The check of `PAL_EXTRACT` passes exactly when the palette RAM holds the colours taken
(40_palette_extractor.md R150). -/
theorem palExtractChecks_pass_iff (m : Int) (s : State) :
    firstError (palExtractChecks m s) = none ↔ extractCount m s.hist.length ≤ 256 := by
  simp [firstError_eq_none, palExtractChecks]

/-- A `PAL_EXTRACT` without error took at most 256 colours and committed its writes
(40_palette_extractor.md R150, 60_exceptions.md R264, R265). -/
theorem exec_palExtract_success {m : Int} {s t : State} (h : exec (.palExtract m) s = .next t)
    (hok : t.status.error = false) :
    extractCount m s.hist.length ≤ 256 ∧ t = succeed (palExtractCommit m s) := by
  rw [exec_palExtract] at h
  rcases conclude_cases h with ⟨code, -, rfl⟩ | ⟨hpass, rfl⟩
  · simp at hok
  · exact ⟨(palExtractChecks_pass_iff m s).1 hpass, rfl⟩

/-- What `PAL_EXTRACT` writes into `PAL_COUNT` is not cut to the register's 32 bits. -/
theorem palExtractCommit_palCount_toNat {m : Int} {s : State}
    (h : extractCount m s.hist.length ≤ 256) :
    (palExtractCommit m s).operands.palCount.toNat = extractCount m s.hist.length := by
  rw [palExtractCommit_operands]
  exact Nat.mod_eq_of_lt (by omega)

/-- Settles O29: a successful extraction leaves its count in `PAL_COUNT`, and the sign of `m` says what the
count is. -/
theorem paletteCountIsCapped : Obligations.PaletteCountIsCapped := by
  intro m s t h hok
  obtain ⟨hfit, rfl⟩ := exec_palExtract_success h hok
  rw [succeed_operands, palExtractCommit_palCount_toNat hfit]
  constructor
  · intro hm
    rw [extractCount_of_nonneg hm]
    exact ⟨rfl, min_le_left _ _⟩
  · intro hm
    exact extractCount_of_neg hm _

end Sys2Proof.Machine
end

section
/-!
PROOFS. The obligations of spec/41_nearest_quantizer.md: the search over a single entry.
-/
namespace Sys2Proof.Machine

/-- With one entry the loop of the search makes no turn: its start value is the answer
(41_nearest_quantizer.md R173). -/
theorem nearestIndex_one (pal : PaletteRam) (q : Rgb8) :
    nearestIndex pal q 1 = (0, dist (pal.entry 0) q) := rfl

/-- A distance has 18 bits, so `RESULT_DIST` holds it uncut (00_scope.md R23). -/
theorem ofNat_dist_toNat (p q : Rgb8) : (BitVec.ofNat 32 (dist p q)).toNat = dist p q :=
  Nat.mod_eq_of_lt ((dist_le p q).trans_lt (by decide))

/-- Settles O33: one entry is a palette in use, so no check fails, and the search answers its start value. -/
theorem singleEntryPaletteAnswersIndexZero : Obligations.SingleEntryPaletteAnswersIndexZero := by
  intro s h
  have hcount : palCountNat s = 1 := congrArg BitVec.toNat h
  have hready : paletteReady s := ⟨hcount.ge, hcount.le.trans (by decide)⟩
  refine ⟨_, exec_mapNearest_of_ready hready, ?index, ?dist⟩ <;>
    rw [succeed_results, nearestCommit_results, hcount, nearestIndex_one]
  case dist => exact ofNat_dist_toNat _ _

end Sys2Proof.Machine
end

section
/-!
PROOFS. The obligations of spec/42_sag_encoder.md: the mask and index bytes of the stream `ENCODE` writes.
-/
namespace Sys2Proof.Machine

/-- Of the eight bit positions of a mask byte, block `k` uses those of its pixels inside the row
(42_sag_encoder.md R193, R194). -/
theorem lt_blockWidth_iff {w k b : Nat} (hb : b < 8) : b < blockWidth w k ↔ 8 * k + b < w := by
  simp only [blockWidth, Config.blockW]
  omega

/-- After the writes of `ENCODE`, the byte at `off_mask(f, y, k)` of the stream is the mask of the block
(42_sag_encoder.md R193, R194). -/
theorem encodeCommit_read_mask (s : State) {f y k : Nat} (hf : f < s.operands.frameCount.toNat)
    (hy : y < s.operands.height.toNat) (hk : k < ceil8 s.operands.width.toNat) :
    (encodeCommit s).mem.read (s.operands.dstAddr.toNat +
        maskOffset s.operands.width.toNat s.operands.height.toNat f y k) =
      BitVec.ofNat 8 (maskValue (frameIndex s.mem s.operands.srcAddr.toNat s.operands.width.toNat
        s.operands.height.toNat) s.operands.width.toNat f y k) :=
  encodeCommit_read s (stream_mask _ (headerBytes_length _ _ _ _ _ _) _ hf hy hk)

/-- After the writes of `ENCODE`, the byte at `off_index(f, x, y)` of the stream is the pixel's index byte
(42_sag_encoder.md R193, R195). -/
theorem encodeCommit_read_index (s : State) {f x y : Nat} (hf : f < s.operands.frameCount.toNat)
    (hy : y < s.operands.height.toNat) (hx : x < s.operands.width.toNat) :
    (encodeCommit s).mem.read (s.operands.dstAddr.toNat +
        indexOffset s.operands.width.toNat s.operands.height.toNat f x y) =
      frameIndex s.mem s.operands.srcAddr.toNat s.operands.width.toNat s.operands.height.toNat f x y :=
  encodeCommit_read s (stream_index _ (headerBytes_length _ _ _ _ _ _) _ hf hy hx)

/-- Settles O39: no check fails, so memory holds the stream; its mask bytes are read bit by bit, and its index
bytes stand beside them whatever the mask says. -/
theorem encodeWritesTheFrameData : Obligations.EncodeWritesTheFrameData := by
  intro s hready w h rs fs idx
  refine ⟨_, exec_sagEncode_of_ready hready,
    fun f y hf hy => ⟨fun k hk b hb => ?mask, fun x hx => ?index⟩⟩
  case mask =>
    have hbyte : (succeed (encodeCommit s)).mem.read
        (s.operands.dstAddr.toNat + (780 + f * fs + y * rs + 9 * k)) =
        BitVec.ofNat 8 (maskValue idx w f y k) := encodeCommit_read_mask s hf hy hk
    rw [hbyte, maskValue_bit idx w f y k b hb, decide_eq_decide.2 (lt_blockWidth_iff hb)]
  case index => exact encodeCommit_read_index s hf hy hx

end Sys2Proof.Machine
end

section
/-!
PROOFS. The obligations of spec/43_sag_decoder.md: what `DECODE` reads of its stream.
-/
namespace Sys2Proof.Machine

/-! ### What depends on the header alone -/

/-- The palette slots of a header are read from its first 780 bytes (42_sag_encoder.md R191). -/
theorem tabulate_headerSlot_congr {m n : Memory} {base : Nat}
    (h : ∀ j, j < 780 → m.read (base + j) = n.read (base + j)) :
    PaletteRam.tabulate (headerSlot m base) = PaletteRam.tabulate (headerSlot n base) := by
  refine PaletteRam.ext_of_entry fun i hi => ?_
  rw [PaletteRam.entry_tabulate _ hi, PaletteRam.entry_tabulate _ hi]
  simp only [headerSlot, Nat.add_assoc]
  rw [h (12 + 3 * i) (by omega), h (13 + 3 * i) (by omega), h (14 + 3 * i) (by omega)]

section OtherMemory

variable {s : State} {mem : Memory}
  (hheader : ∀ j, j < 780 →
    mem.read (s.operands.srcAddr.toNat + j) = s.mem.read (s.operands.srcAddr.toNat + j))
include hheader

theorem inputSigned_of_same_header (h : inputSigned s) : inputSigned { s with mem := mem } := by
  obtain ⟨h0, h1, h2⟩ := h
  exact ⟨(hheader 0 (by decide)).trans h0, (hheader 1 (by decide)).trans h1,
    (hheader 2 (by decide)).trans h2⟩

/-- The checks of `DECODE` look at the registers, the platform and the header, at no byte of the frames
(43_sag_decoder.md R230). -/
theorem decodeReady_of_same_header (h : decodeReady s) : decodeReady { s with mem := mem } := by
  have hhdr : inputHeader { s with mem := mem } = inputHeader s := headerAt_congr hheader
  obtain ⟨⟨hsrc, hlen, hread, hsign, hneed, hframes⟩, hdst, hwrite, hlap⟩ := h
  unfold decodeReady inputReady inputNeed inputPixels
  rw [hhdr]
  exact ⟨⟨hsrc, hlen, hread, inputSigned_of_same_header hheader hsign, hneed, hframes⟩,
    hdst, hwrite, hlap⟩

/-- What `DECODE` writes outside memory comes from the header (43_sag_decoder.md R230). -/
theorem decodeCommit_of_same_header :
    decodeCommit { s with mem := mem } =
      { decodeCommit s with mem := (decodeCommit { s with mem := mem }).mem } := by
  have hhdr : sourceHeader { s with mem := mem } = sourceHeader s := headerAt_congr hheader
  simp only [decodeCommit, hhdr, tabulate_headerSlot_congr hheader]

end OtherMemory

/-! ### The decoded pixels -/

/-- After the writes of `DECODE`, the pixel at `frame_addr(DST_ADDR, f, x, y)` is the index byte at
`off_index(f, x, y)` of the stream (43_sag_decoder.md R230, R232). -/
theorem decodeCommit_read_frameAddr (s : State) {f y x : Nat} (hf : f < (inputHeader s).frameCount)
    (hy : y < (inputHeader s).height) (hx : x < (inputHeader s).width) :
    (decodeCommit s).mem.read (frameAddr s.operands.dstAddr.toNat (inputHeader s).width
        (inputHeader s).height f x y) =
      s.mem.read (s.operands.srcAddr.toNat +
        indexOffset (inputHeader s).width (inputHeader s).height f x y) := by
  rw [frameAddr, Nat.add_assoc s.operands.dstAddr.toNat, Nat.add_assoc s.operands.dstAddr.toNat]
  exact decodeCommit_read s hf hy hx

/-- Settles O43: the checks, the registers and the palette rest on the header, where the memories agree, so
both decodes complete alike; each pixel is the index byte of its own stream, and those agree too. -/
theorem decodeIgnoresMaskBytes : Obligations.DecodeIgnoresMaskBytes := by
  intro s mem hready src hdr hheader hindex
  have hhdr : inputHeader { s with mem := mem } = hdr := headerAt_congr hheader
  refine ⟨_, _, exec_sagDecode_of_ready hready,
    exec_sagDecode_of_ready (decodeReady_of_same_header hheader hready), ?frame,
    fun f y x hf hy hx => ?pixel⟩
  case frame => exact congrArg succeed (decodeCommit_of_same_header hheader)
  case pixel =>
    have ht := decodeCommit_read_frameAddr s hf hy hx
    have hu := decodeCommit_read_frameAddr { s with mem := mem } (f := f) (y := y) (x := x)
      (by rwa [hhdr]) (by rwa [hhdr]) (by rwa [hhdr])
    rw [hhdr] at hu
    have hstream := hu.trans (hindex f y x hf hy hx)
    exact ⟨hstream.trans ht.symm, hstream⟩

end Sys2Proof.Machine
end

section
/-!
PROOFS. The obligations of spec/60_exceptions.md: issue, completion with an error, and the interrupt output.
-/
namespace Sys2Proof.Machine

/-! ### A command that fails -/

/-- A command either raises an error, which writes `STATUS` alone, or ends without `ERROR`
(60_exceptions.md R264, R265, 44_control.md R252). -/
theorem exec_raises_or_succeeds {i : Instr} {s t : State} (h : exec i s = .next t) :
    (∃ code, t = raiseError code s) ∨ t.status.error = false := by
  rcases exec_cases h with ⟨code, -, rfl⟩ | ⟨-, rfl⟩ | ⟨-, rfl⟩ | ⟨-, rfl⟩ | ⟨-, -, rfl⟩ |
    ⟨m, -, -, rfl⟩ | ⟨-, -, rfl⟩ | ⟨-, -, rfl⟩ | ⟨-, -, rfl⟩ | ⟨-, -, rfl⟩
  case inl => exact .inl ⟨code, rfl⟩
  -- `soft.reset` leaves `ERROR` at its reset value; the others end in `succeed`, which clears it.
  all_goals exact .inr rfl

/-- Settles O13: only `raiseError` leaves `ERROR` set, and it writes nothing but `STATUS`. -/
theorem failedCommandChangesOnlyStatus : Obligations.FailedCommandChangesOnlyStatus := by
  intro i s t h herror
  rcases exec_raises_or_succeeds h with ⟨code, rfl⟩ | hok
  · rfl
  · exact absurd (herror.symm.trans hok) (by decide)

/-! ### Issue -/

/-- An idle block takes a write to `CMD` as an issue (60_exceptions.md R262). -/
theorem writeReg_cmd_of_idle {s : State} (w : Word) (h : s.status.busy = false) :
    writeReg s .cmd w = issue w s :=
  whenIdle_of_idle _ h

/-- A busy block drops a write to `CMD` (60_exceptions.md R262, 10_state.md R58). -/
theorem writeReg_cmd_of_busy {s : State} (w : Word) (h : s.status.busy = true) :
    writeReg s .cmd w = setOverrun s :=
  whenIdle_of_busy _ h

/-- Settles O11: an idle block issues the word, a busy one drops it. -/
theorem issueLatchesTheWord : Obligations.IssueLatchesTheWord :=
  fun _ w => ⟨writeReg_cmd_of_idle w, writeReg_cmd_of_busy w⟩

/-- Settles O10: the latch holds the issued word, so completion finds no command, and `raiseError` keeps the
`LAST_OP` that issue wrote. -/
theorem illegalWordCompletesWithError : Obligations.IllegalWordCompletesWithError := by
  intro s w e hw
  have hillegal : ¬ ∃ i, decode (issue w s).latch = .ok i := by
    rintro ⟨i, hi⟩
    rw [issue_latch, hw] at hi
    cases hi
  exact ⟨raiseError .illegalCommand (issue w s), complete_of_illegal hillegal, rfl, rfl, rfl, rfl⟩

/-! ### The interrupt output -/

/-- Zero extension keeps every bit of `INT_EN` (10_state.md R37). -/
theorem readReg_intEn_getLsbD (s : State) (b : Nat) :
    (readReg s .intEn).getLsbD b = s.intEn.getLsbD b := by
  have hlt : s.intEn.getLsbD b = true → b < 32 := fun h => (BitVec.lt_of_getLsbD h).trans (by decide)
  simpa [readReg] using hlt

/-- Settles O53: bits 1 to 3 of the `STATUS` word are the flags, bits 0 to 2 of the `INT_EN` word their
enables. -/
theorem interruptFollowsStatusAndEnables : Obligations.InterruptFollowsStatusAndEnables := by
  intro s
  obtain ⟨-, hdone, herror, hoverrun⟩ := Status.word_flags s.status
  have hstatus : readReg s .status = s.status.word := rfl
  rw [hstatus, hdone, herror, hoverrun]
  simp only [readReg_intEn_getLsbD, State.irq]

end Sys2Proof.Machine
end

section
/-!
PROOFS. The obligations of spec/30_encoding.md: the decoder and the encoder are inverse to each other, each
legal word has its row of the opcode map, and what the assembler and the pseudo-instructions answer.
-/
namespace Sys2Proof.Machine

/-! ### Immediates -/

/-- An immediate in range survives the cut to 16 bits (30_encoding.md R113, R119). -/
theorem maxColorsOf_immOf {m : Int} (hlo : -32768 ≤ m) (hhi : m ≤ 32767) :
    maxColorsOf (immOf m) = m := by
  rw [maxColorsOf, immOf, BitVec.toInt_ofInt, Int.bmod_eq_of_le] <;> norm_num <;> omega

theorem immOf_maxColorsOf (imm16 : Half) : immOf (maxColorsOf imm16) = imm16 :=
  BitVec.ofInt_toInt

theorem immOf_toNat (m : Int) : ((immOf m).toNat : Int) = m % 65536 := by
  rw [immOf, BitVec.toNat_ofInt, Int.toNat_of_nonneg (Int.emod_nonneg _ (by decide))]
  rfl

theorem palExtract_wellFormed_iff (m : Int) :
    (Instr.palExtract m).wellFormed = true ↔ -32768 ≤ m ∧ m ≤ 32767 := by
  simp [Instr.wellFormed]

/-! ### Decode and encode -/

/-- The word of a command without an immediate is its opcode alone, and the command is well formed
(30_encoding.md R112). -/
theorem wellFormed_and_encode_of_plain {o : Byte} {i : Instr} (h : plainCommand o = some i) :
    i.wellFormed = true ∧ encode i = commandWord 0 0 o := by
  rcases plainCommand_cases h with ⟨rfl, rfl⟩ | ⟨rfl, rfl⟩ | ⟨rfl, rfl⟩ | ⟨rfl, rfl⟩ | ⟨rfl, rfl⟩ |
    ⟨rfl, rfl⟩ | ⟨rfl, rfl⟩ | ⟨rfl, rfl⟩ <;> exact ⟨rfl, rfl⟩

theorem decode_commandWord_of_plain {o : Byte} {i : Instr} (h : plainCommand o = some i) :
    decode (commandWord 0 0 o) = .ok i :=
  decode_of_plain (reservedField_commandWord _ _ _) (immField_commandWord _ _ _)
    (by rwa [opcodeField_commandWord])

theorem decode_commandWord_extract (imm16 : Half) :
    decode (commandWord imm16 0 0x03) = .ok (.palExtract (maxColorsOf imm16)) := by
  rw [decode_of_extract (reservedField_commandWord _ _ _) (opcodeField_commandWord _ _ _),
    immField_commandWord]

/-- Settles O1: the rows without an immediate are read back by their opcode, and the immediate of
`pal.extract` because it is in range. -/
theorem decodeOfEncodeIsTheCommand : Obligations.DecodeOfEncodeIsTheCommand := by
  intro i hwf
  cases i with
  | palExtract m =>
    obtain ⟨hlo, hhi⟩ := (palExtract_wellFormed_iff m).1 hwf
    rw [encode, decode_commandWord_extract, maxColorsOf_immOf hlo hhi]
  | nop | histClear | histAccum | mapNearest | mapQuantize | sagEncode | sagDecode | softReset =>
    exact decode_commandWord_of_plain rfl

/-- Settles O2: the three fields make up the word, and each way to decode gives all three back. -/
theorem encodeOfDecodeIsTheWord : Obligations.EncodeOfDecodeIsTheWord := by
  intro w i h
  have hw := commandWord_fields w
  obtain ⟨hr, ⟨ho, rfl⟩ | ⟨-, him, hp⟩⟩ := decode_cases h
  · refine ⟨(palExtract_wellFormed_iff _).2 (maxColorsOf_bounds _), ?_⟩
    rw [encode, immOf_maxColorsOf, ← hr, ← ho, hw]
  · obtain ⟨hwf, henc⟩ := wellFormed_and_encode_of_plain hp
    exact ⟨hwf, by rw [henc, ← hw, hr, him, opcodeField_commandWord]⟩

/-! ### Rows of the opcode map -/

/-- The word of every command matches the row of its name and no other (30_encoding.md R112). -/
theorem rowOfEncoding (i : Instr) : Laws.RowOfEncoding.Statement i := by
  cases i with
  | nop => exact Laws.RowOfEncoding.nop
  | histClear => exact Laws.RowOfEncoding.histClear
  | histAccum => exact Laws.RowOfEncoding.histAccum
  | palExtract m => exact Laws.RowOfEncoding.palExtract m
  | mapNearest => exact Laws.RowOfEncoding.mapNearest
  | mapQuantize => exact Laws.RowOfEncoding.mapQuantize
  | sagEncode => exact Laws.RowOfEncoding.sagEncode
  | sagDecode => exact Laws.RowOfEncoding.sagDecode
  | softReset => exact Laws.RowOfEncoding.softReset

/-- Every row but that of `pal.extract` fixes the whole word, and that word decodes. -/
theorem decode_of_rowMatches {row : OpcodeRow} {w : Word} (hmem : row ∈ opcodeMap)
    (hmatch : rowMatches row w = true) : ∃ i, decode w = .ok i := by
  simp only [opcodeMap, List.mem_cons, List.not_mem_nil, or_false] at hmem
  rcases hmem with rfl | rfl | rfl | rfl | rfl | rfl | rfl | rfl | rfl
  case inr.inr.inr.inl =>
    rw [matches_extract, decide_eq_true_eq] at hmatch
    exact ⟨_, decode_of_extract hmatch.1 hmatch.2⟩
  all_goals
    rw [matches_exact, decide_eq_true_eq] at hmatch
    subst hmatch
    exact ⟨_, rfl⟩

/-- Settles O4: a word that decodes is the word of its command, which has one row; and a word of some row
decodes. -/
theorem decodedCommandHasOneMatchingRow : Obligations.DecodedCommandHasOneMatchingRow := by
  intro w
  constructor
  · intro i h
    have hrow : Laws.RowOfEncoding.Statement i := rowOfEncoding i
    rw [Laws.RowOfEncoding.Statement, (encodeOfDecodeIsTheWord w i h).2] at hrow
    exact List.map_eq_singleton_iff.1 hrow
  · rintro ⟨row, hmem, hmatch⟩
    exact decode_of_rowMatches hmem hmatch

/-! ### The assembler and the pseudo-instructions -/

/-- The assembler refuses exactly the commands that are not well formed (30_encoding.md R119). -/
theorem assemble_eq_none_iff (i : Instr) : assemble i = none ↔ i.wellFormed = false := by
  simp [assemble]

theorem assemble_of_wellFormed {i : Instr} (h : i.wellFormed = true) :
    assemble i = some (encode i) := if_pos h

/-- Only `pal.extract` has an operand that can be out of range. -/
theorem not_wellFormed_iff (i : Instr) :
    i.wellFormed = false ↔ ∃ m, i = .palExtract m ∧ (m < -32768 ∨ 32767 < m) := by
  cases i with
  | palExtract m =>
    rw [← Bool.not_eq_true, palExtract_wellFormed_iff]
    simp only [Instr.palExtract.injEq, exists_eq_left']
    omega
  | nop | histClear | histAccum | mapNearest | mapQuantize | sagEncode | sagDecode | softReset =>
    simp [Instr.wellFormed]

/-- Bits 15:0 of the word of `pal.extract` are its opcode under a reserved field of 0. -/
theorem commandWord_extract_low (imm16 : Half) :
    (commandWord imm16 0 0x03).extractLsb' 0 16 = 3#16 := by
  have hlow : commandWord imm16 0 0x03 = imm16 ++ 3#16 := by
    rw [commandWord, BitVec.append_assoc]
    rfl
  rw [hlow, BitVec.extractLsb'_append_eq_right]

/-- Settles O6: refusal is being ill formed, and the fields of the word are `m mod 65536` and 3. -/
theorem assemblerEncodesOrRefuses : Obligations.AssemblerEncodesOrRefuses := by
  refine ⟨fun i => (assemble_eq_none_iff i).trans (not_wellFormed_iff i), fun m hlo hhi => ?_⟩
  have himm : (encode (.palExtract m)).extractLsb' 16 16 = immOf m := immField_commandWord _ _ _
  refine ⟨_, assemble_of_wellFormed ((palExtract_wellFormed_iff m).2 ⟨hlo, hhi⟩), ?_,
    commandWord_extract_low _⟩
  rw [himm, immOf_toNat]

/-- Settles O7: each word is evaluated. -/
theorem sampleWordsDecode : Obligations.SampleWordsDecode := by
  unfold Obligations.SampleWordsDecode
  decide

/-- Joined bit vectors, as numbers. -/
theorem append_toNat {m n : Nat} (hi : BitVec m) (lo : BitVec n) :
    (hi ++ lo).toNat = hi.toNat * 2 ^ n + lo.toNat := by
  rw [BitVec.toNat_append, ← Nat.shiftLeft_add_eq_or_of_lt lo.isLt, Nat.shiftLeft_eq]

/-- A palette register as a number (10_state.md R55). -/
theorem rgb8Word_toNat (e : Rgb8) :
    (rgb8Word e).toNat = e.r.toNat * 65536 + e.g.toNat * 256 + e.b.toNat := by
  simp only [rgb8Word, append_toNat, BitVec.toNat_ofNat]
  omega

/-- Settles O50: `cmd` and `run` go through the assembler, and the others are writes of fixed words. -/
theorem pseudoInstructionsExpand : Obligations.PseudoInstructionsExpand := by
  refine ⟨fun i hi => ?refused, fun i w hi => ?assembled, fun c => ?setq, fun i e _ => ?setpal, rfl⟩
  case refused => simp [cmd, Machine.run, hi]
  case assembled => simp [cmd, Machine.run, hi, wr, regOffset]
  case setq => exact ⟨_, _, rfl, append_toNat _ _, append_toNat _ _⟩
  case setpal => exact ⟨_, rfl, rgb8Word_toNat e⟩

end Sys2Proof.Machine
end

section
/-!
SUPPORT. Checks as cases on the state: one rule per kind of check, the checks that `QUANTIZE` and `ENCODE` make
of their two regions, and for each command when all its checks pass (60_exceptions.md R269).
-/
namespace Sys2Proof.Machine

/-! ### One check as a case -/

theorem firstError_decide (p : Prop) [Decidable p] (e : ErrorCode) (cs : List Check) :
    firstError ((fun _ => decide p, e) :: cs) = if p then some e else firstError cs := by
  simp only [firstError_cons, decide_eq_true_eq]

theorem firstError_inRange (r : Region) (e : ErrorCode) (cs : List Check) :
    firstError ((fun _ => !r.inRange, e) :: cs) =
      if inRangeAt r.addr r.len then firstError cs else some e := by
  simp only [firstError_cons, Bool.not_eq_true', Region.inRange_false_iff, ite_not]

theorem firstError_admitted (p : Platform) (r : Region) (k : AccessKind) (e : ErrorCode)
    (cs : List Check) :
    firstError ((fun _ => !r.admitted p k, e) :: cs) =
      if admittedAt p r.addr r.len k then firstError cs else some e := by
  simp only [firstError_cons, Bool.not_eq_true', ← Bool.not_eq_true, Region.admitted_iff, ite_not]

theorem firstError_overlaps (r q : Region) (e : ErrorCode) (cs : List Check) :
    firstError ((fun _ => r.overlaps q, e) :: cs) =
      if overlapAt r.addr r.len q.addr q.len then some e else firstError cs := by
  simp only [firstError_cons, Region.overlaps_iff]

theorem firstError_cons_eq_none {c : Unit → Bool} {e : ErrorCode} {cs : List Check} :
    firstError ((c, e) :: cs) = none ↔ c () = false ∧ firstError cs = none := by
  cases hc : c () <;> simp [firstError_cons, hc]

/-! ### A source that is read and a destination that is written -/

/-- The last five checks of `QUANTIZE` (41_nearest_quantizer.md R176) and of `ENCODE`
(42_sag_encoder.md R200). -/
def regionChecks (p : Platform) (src dst : Region) : List Check :=
  [(fun _ => !src.inRange, .addrRange), (fun _ => !dst.inRange, .addrRange),
    (fun _ => !src.admitted p .read, .busError), (fun _ => !dst.admitted p .write, .busError),
    (fun _ => src.overlaps dst, .overlap)]

theorem quantizeChecks_eq (s : State) :
    quantizeChecks s =
      paletteChecks s ++ regionChecks s.platform (pixelRegion s) (indexRegion s) := rfl

theorem drop_encodeChecks (s : State) :
    (encodeChecks s).drop 3 = regionChecks s.platform (encodeSource s) (encodeDest s) := rfl

section Regions

variable {p : Platform} {src dst : Region}

theorem regionChecks_pass_iff :
    firstError (regionChecks p src dst) = none ↔
      inRangeAt src.addr src.len ∧ inRangeAt dst.addr dst.len ∧
        admittedAt p src.addr src.len .read ∧ admittedAt p dst.addr dst.len .write ∧
        ¬ overlapAt src.addr src.len dst.addr dst.len := by
  simp only [regionChecks, firstError_cons_eq_none, Bool.not_eq_false', Region.inRange_iff,
    Region.admitted_iff, Region.overlaps_false_iff]
  simp only [firstError, and_true]

theorem regionChecks_addrRange
    (h : ¬ (inRangeAt src.addr src.len ∧ inRangeAt dst.addr dst.len)) :
    firstError (regionChecks p src dst) = some .addrRange := by
  rw [regionChecks, firstError_inRange]
  by_cases hsrc : inRangeAt src.addr src.len
  · rw [if_pos hsrc, firstError_inRange, if_neg fun hdst => h ⟨hsrc, hdst⟩]
  · rw [if_neg hsrc]

theorem regionChecks_busError (hsrc : inRangeAt src.addr src.len) (hdst : inRangeAt dst.addr dst.len)
    (h : ¬ (admittedAt p src.addr src.len .read ∧ admittedAt p dst.addr dst.len .write)) :
    firstError (regionChecks p src dst) = some .busError := by
  rw [regionChecks, firstError_inRange, if_pos hsrc, firstError_inRange, if_pos hdst,
    firstError_admitted]
  by_cases hread : admittedAt p src.addr src.len .read
  · rw [if_pos hread, firstError_admitted, if_neg fun hwrite => h ⟨hread, hwrite⟩]
  · rw [if_neg hread]

theorem regionChecks_overlap (hsrc : inRangeAt src.addr src.len) (hdst : inRangeAt dst.addr dst.len)
    (hread : admittedAt p src.addr src.len .read) (hwrite : admittedAt p dst.addr dst.len .write)
    (h : overlapAt src.addr src.len dst.addr dst.len) :
    firstError (regionChecks p src dst) = some .overlap := by
  rw [regionChecks, firstError_inRange, if_pos hsrc, firstError_inRange, if_pos hdst,
    firstError_admitted, if_pos hread, firstError_admitted, if_pos hwrite, firstError_overlaps,
    if_pos h]

end Regions

/-! ### The checks of a command -/

/-- The checks a command makes, in order. -/
def checksOf (s : State) : Instr → List Check
  | .histAccum => histAccumChecks s
  | .palExtract m => palExtractChecks m s
  | .mapNearest => paletteChecks s
  | .mapQuantize => quantizeChecks s
  | .sagEncode => encodeChecks s
  | .sagDecode => decodeChecks s
  | .nop => []
  | .histClear => []
  | .softReset => []

/-- A command fails with the code of its first failing check and changes `STATUS` only
(60_exceptions.md R265, R266, R269). -/
theorem failsWith_of_firstError {i : Instr} {s : State} {code : ErrorCode}
    (h : firstError (checksOf s i) = some code) : failsWith i s code := by
  cases i with
  | histAccum => exact (exec_histAccum s).trans (conclude_fails h)
  | palExtract m => exact (exec_palExtract m s).trans (conclude_fails h)
  | mapNearest => exact (exec_mapNearest s).trans (conclude_fails h)
  | mapQuantize => exact (exec_mapQuantize s).trans (conclude_fails h)
  | sagEncode => exact (exec_sagEncode s).trans (conclude_fails h)
  | sagDecode => exact (exec_sagDecode s).trans (conclude_fails h)
  | nop | histClear | softReset => cases h

/-! ### When no check fails -/

theorem paletteChecks_pass_iff (s : State) :
    firstError (paletteChecks s) = none ↔ paletteReady s := by
  simp only [paletteChecks, firstError_cons_eq_none, decide_eq_false_iff_not]
  simp only [firstError, and_true, palCountNat, Config.paletteSize]
  omega

theorem histAccumChecks_pass_iff (s : State) :
    firstError (histAccumChecks s) = none ↔
      pixelsReady s ∧ (accumulated s).length ≤ s.platform.histCapacity ∧
        ∀ e ∈ accumulated s, e.count ≤ Config.countMax := by
  simp only [histAccumChecks, firstError_cons_eq_none, Bool.not_eq_false', Region.inRange_iff,
    Region.admitted_iff, decide_eq_false_iff_not, not_lt, Histogram.overflows_false_iff]
  simp only [firstError, and_true, and_assoc]
  rfl

theorem quantizeChecks_pass_iff (s : State) :
    firstError (quantizeChecks s) = none ↔ quantizeReady s := by
  rw [quantizeChecks_eq, firstError_append, Option.or_eq_none_iff, paletteChecks_pass_iff,
    regionChecks_pass_iff]
  simp only [quantizeReady, pixelsReady, pixelRegion, indexRegion, pixCountNat]
  tauto

theorem encodeChecks_pass_iff (s : State) : firstError (encodeChecks s) = none ↔ encodeReady s := by
  have hsplit : encodeChecks s =
      (encodeChecks s).take 3 ++ regionChecks s.platform (encodeSource s) (encodeDest s) := rfl
  have himage : firstError ((encodeChecks s).take 3) = none ↔ imageReady s := by
    simp only [encodeChecks, List.take, firstError_cons_eq_none, Bool.or_eq_false_iff,
      decide_eq_false_iff_not]
    simp only [firstError, and_true, imageReady, encodeDelay, palCountNat, Config.fieldMax,
      Config.paletteSize]
    omega
  rw [hsplit, firstError_append, Option.or_eq_none_iff, regionChecks_pass_iff, himage]
  rfl

theorem decodeChecks_pass_iff (s : State) : firstError (decodeChecks s) = none ↔ decodeReady s := by
  simp only [decodeChecks, firstError_cons_eq_none, Bool.not_eq_false', Region.inRange_iff,
    Region.admitted_iff, Region.overlaps_false_iff, decide_eq_false_iff_not, not_lt, signatureOk_iff]
  simp only [firstError, and_true, and_assoc, decodeReady, inputReady]
  rfl

end Sys2Proof.Machine
end

section
/-!
PROOFS. The legal states (10_state.md, registers, flags and hidden state): every command, every host access and
the hardware reset keep them, so every step does, and reset enters them.
-/
namespace Sys2Proof.Machine

/-! ### Legal states without `STATUS` -/

/-- The part of `State.legal` that does not speak of `STATUS`: what a command's own writes have to keep, for
completion sets `STATUS` afterwards. -/
abbrev dataLegal (s : State) : Prop :=
  platformLegal s.platform ∧ resultsLegal s.results ∧ histLegal s ∧ Memory.wf s.mem

theorem dataLegal_of_legal {s : State} (h : State.legal s) : dataLegal s := by
  obtain ⟨hplatform, -, -, hresults, hhist, hmem⟩ := h
  exact ⟨hplatform, hresults, hhist, hmem⟩

theorem succeed_legal {s : State} (h : dataLegal s) : State.legal (succeed s) := by
  obtain ⟨hplatform, hresults, hhist, hmem⟩ := h
  exact ⟨hplatform, by simp [statusLegal], by simp [latchShown], hresults, hhist, hmem⟩

theorem raiseError_legal {s : State} {code : ErrorCode} (hcode : code ≠ .noError) (h : dataLegal s) :
    State.legal (raiseError code s) := by
  obtain ⟨hplatform, hresults, hhist, hmem⟩ := h
  exact ⟨hplatform, by simp [statusLegal, hcode], by simp [latchShown], hresults, hhist, hmem⟩

theorem resultsLegal_reset : resultsLegal ResultRegs.reset := by decide

theorem histLegal_of_empty {s : State} (h : s.hist = []) : histLegal s := by
  simp [histLegal, Histogram.wf, h]

theorem resetBlock_legal {s : State} (hplatform : platformLegal s.platform) (hmem : Memory.wf s.mem) :
    State.legal (resetBlock s) :=
  ⟨hplatform, by simp [statusLegal], by simp [latchShown], resultsLegal_reset,
    histLegal_of_empty rfl, hmem⟩

theorem softResetState_legal {s : State} (hplatform : platformLegal s.platform)
    (hmem : Memory.wf s.mem) : State.legal (softResetState s) :=
  ⟨hplatform, by simp [statusLegal], by simp [latchShown], resultsLegal_reset,
    histLegal_of_empty rfl, hmem⟩

/-! ### The writes of the commands -/

/-- The last two checks of `HIST_ACCUM` are the bounds of a legal histogram
(40_palette_extractor.md R145). -/
theorem accumulated_histLegal {s : State} (hwf : Histogram.wf s.hist)
    (hpass : firstError (histAccumChecks s) = none) : histLegal { s with hist := accumulated s } := by
  obtain ⟨-, hfull, hcounts⟩ := (histAccumChecks_pass_iff s).1 hpass
  obtain ⟨hsorted, hpos⟩ := Histogram.addAll_ordered hwf.toOrdered
    (pixelArray s.mem s.operands.srcAddr.toNat (pixCountNat s))
  exact ⟨⟨hsorted, fun e he => ⟨hpos e he, hcounts e he⟩⟩, hfull⟩

theorem ofNat_toNat_le {n b : Nat} (h : n ≤ b) : (BitVec.ofNat 32 n).toNat ≤ b :=
  (Nat.mod_le _ _).trans h

/-- An index below `PAL_COUNT ≤ 256` has 8 bits, a distance 18 (41_nearest_quantizer.md R170 to R172). -/
theorem nearestCommit_resultsLegal {s : State} (h : resultsLegal s.results) (hready : paletteReady s) :
    resultsLegal (nearestCommit s).results := by
  obtain ⟨-, -, hdelay, hversion⟩ := h
  obtain ⟨hlo, hhi⟩ := hready
  obtain ⟨⟨hlt, -⟩, hdist⟩ :=
    nearestIndex_correct s.palette (queryColour s).proj (n := palCountNat s) hlo
  have hindex : (nearestIndex s.palette (queryColour s).proj (palCountNat s)).1 ≤ 255 :=
    Nat.le_of_lt_succ (hlt.trans_le hhi)
  rw [nearestCommit_results]
  refine ⟨Nat.lt_succ_of_le (ofNat_toNat_le hindex), ofNat_toNat_le ?_, hdelay, hversion⟩
  rw [hdist]
  exact dist_le _ _

theorem quantizeCommit_mem_wf {s : State} (h : Memory.wf s.mem) (hready : quantizeReady s) :
    Memory.wf (quantizeCommit s).mem := by
  obtain ⟨-, -, ⟨-, hend⟩, -, -⟩ := hready
  exact Memory.writeBytes_wf h (by rw [quantizeOutput_length]; exact hend)

theorem encodeCommit_mem_wf {s : State} (h : Memory.wf s.mem) (hready : encodeReady s) :
    Memory.wf (encodeCommit s).mem := by
  obtain ⟨-, -, ⟨-, hend⟩, -, -, -⟩ := hready
  exact Memory.writeBytes_wf h (by rw [encodeOutput_length]; exact hend)

/-- The delay check is the bound of `FRAME_DELAY_MS` (42_sag_encoder.md R200). -/
theorem encodeCommit_resultsLegal {s : State} (h : resultsLegal s.results) (hready : encodeReady s) :
    resultsLegal (encodeCommit s).results := by
  obtain ⟨hindex, hdist, -, -⟩ := h
  obtain ⟨⟨-, -, -, -, -, -, hdelay⟩, -⟩ := hready
  exact ⟨hindex, hdist, ofNat_toNat_le hdelay, (by decide : (0x01#32).toNat < 256)⟩

/-- The decoder writes one byte per pixel of the header (43_sag_decoder.md R230). -/
theorem decodeOutput_length_source (s : State) :
    (decodeOutput s.mem s.operands.srcAddr.toNat (sourceHeader s).width (sourceHeader s).height
      (sourceHeader s).frameCount).length = inputPixels s := by
  rw [decodeOutput_length, Nat.mul_comm (sourceHeader s).height, ← Nat.mul_assoc]
  rfl

theorem decodeCommit_mem_wf {s : State} (h : Memory.wf s.mem) (hready : decodeReady s) :
    Memory.wf (decodeCommit s).mem := by
  obtain ⟨-, ⟨-, hend⟩, -, -⟩ := hready
  exact Memory.writeBytes_wf h (by rw [decodeOutput_length_source]; exact hend)

/-- The header's delay is a 16-bit field and its version a byte (42_sag_encoder.md R191). -/
theorem decodeCommit_resultsLegal {s : State} (h : resultsLegal s.results) :
    resultsLegal (decodeCommit s).results := by
  obtain ⟨hindex, hdist, -, -⟩ := h
  refine ⟨hindex, hdist, ofNat_toNat_le (Nat.le_of_lt_succ (be16_lt _ _)), ?_⟩
  rw [decodeCommit_results, BitVec.toNat_setWidth]
  exact (Nat.mod_le _ _).trans_lt (BitVec.isLt _)

/-! ### Commands -/

theorem exec_legal {i : Instr} {s t : State} (hs : dataLegal s) (h : exec i s = .next t) :
    State.legal t := by
  have hdata := hs
  obtain ⟨hplatform, hresults, hhist, hmem⟩ := hs
  rcases exec_cases h with ⟨code, hcode, rfl⟩ | ⟨-, rfl⟩ | ⟨-, rfl⟩ | ⟨-, rfl⟩ | ⟨-, hpass, rfl⟩ |
    ⟨m, -, -, rfl⟩ | ⟨-, hpass, rfl⟩ | ⟨-, hpass, rfl⟩ | ⟨-, hpass, rfl⟩ | ⟨-, hpass, rfl⟩
  · exact raiseError_legal hcode hdata
  · exact softResetState_legal hplatform hmem
  · exact succeed_legal hdata
  · exact succeed_legal ⟨hplatform, hresults, histLegal_of_empty rfl, hmem⟩
  · exact succeed_legal ⟨hplatform, hresults, accumulated_histLegal hhist.1 hpass, hmem⟩
  · exact succeed_legal ⟨hplatform, hresults, histLegal_of_empty rfl, hmem⟩
  · have hready := (paletteChecks_pass_iff s).1 hpass
    exact succeed_legal ⟨hplatform, nearestCommit_resultsLegal hresults hready, hhist, hmem⟩
  · have hready := (quantizeChecks_pass_iff s).1 hpass
    exact succeed_legal ⟨hplatform, hresults, hhist, quantizeCommit_mem_wf hmem hready⟩
  · have hready := (encodeChecks_pass_iff s).1 hpass
    exact succeed_legal ⟨hplatform, encodeCommit_resultsLegal hresults hready, hhist,
      encodeCommit_mem_wf hmem hready⟩
  · have hready := (decodeChecks_pass_iff s).1 hpass
    exact succeed_legal ⟨hplatform, decodeCommit_resultsLegal hresults, hhist,
      decodeCommit_mem_wf hmem hready⟩

theorem complete_legal {s t : State} (hs : State.legal s) (h : complete s = .next t) :
    State.legal t := by
  rcases complete_cases h with ⟨i, -, hi⟩ | ⟨e, -, rfl⟩
  · exact exec_legal (dataLegal_of_legal hs) hi
  · exact raiseError_legal (by decide) (dataLegal_of_legal hs)

/-! ### Host accesses -/

theorem clearOnes_legal {st : Status} (h : statusLegal st) (v : Word) :
    statusLegal (st.clearOnes v) := by
  obtain ⟨herror, hbusy⟩ := h
  refine ⟨?_, fun hb => ?_⟩
  · cases hv : v.getLsbD 2 <;> simp [Status.clearOnes, hv, herror, and_comm]
  · obtain ⟨hdone, herr⟩ := hbusy hb
    simp [Status.clearOnes, hdone, herr]

theorem writeReg_legal {s : State} (hs : State.legal s) (r : Reg) (v : Word) :
    State.legal (writeReg s r v) := by
  have hlegal := hs
  obtain ⟨hplatform, hstatus, hlatch, hresults, hhist, hmem⟩ := hs
  rcases writeReg_cases s r v with h | ⟨-, h⟩ | ⟨-, -, h⟩ | ⟨-, h⟩ | ⟨-, h⟩ | ⟨-, ops, h⟩ |
    ⟨-, i, -, h⟩ <;> rw [h]
  · exact hlegal
  · exact ⟨hplatform, hstatus, hlatch, hresults, hhist, hmem⟩
  · exact ⟨hplatform, by simp [statusLegal], fun _ => rfl, hresults, hhist, hmem⟩
  · exact ⟨hplatform, clearOnes_legal hstatus v, hlatch, hresults, hhist, hmem⟩
  · exact hlegal
  · exact hlegal
  · exact hlegal

theorem hostTurn_legal {s t : State} (hs : State.legal s) (h : hostTurn s = .next t) :
    State.legal t := by
  rcases hostTurn_cases h with ⟨-, rfl⟩ | ⟨off, width, v, rest, r, -, -, rfl⟩ |
    ⟨off, width, rest, r, -, -, rfl⟩ | ⟨a, b, rest, -, ha, rfl⟩ | ⟨a, rest, -, -, -, rfl⟩ |
    ⟨a, rest, -, -, -, rfl⟩ | ⟨rest, -, -, rfl⟩ | ⟨-, rest, -, rfl⟩
  case inr.inl => exact writeReg_legal (s := { s with script := rest }) hs r v
  case inr.inr.inr.inl =>
    obtain ⟨hplatform, hstatus, hlatch, hresults, hhist, hmem⟩ := hs
    exact ⟨hplatform, hstatus, hlatch, hresults, hhist, Memory.write_wf hmem ha⟩
  -- The other turns change at most the host's own fields, `HAZARD` and the counter of free bytes.
  all_goals exact hs

/-! ### Hardware reset -/

/-- Every destination region starts at `DST_ADDR` (70_reset_and_hazards.md R300). -/
theorem destOf_addr {s : State} {i : Instr} {r : Region} (h : destOf s i = some r) :
    r.addr = s.operands.dstAddr.toNat := by
  cases i with
  | sagDecode =>
    rw [destOf] at h
    split at h <;> cases h
    rfl
  | mapQuantize | sagEncode => cases h; rfl
  | nop | histClear | histAccum | palExtract m | mapNearest | softReset => cases h

theorem hardwareReset_legal {s : State} (hs : State.legal s) : State.legal (hardwareReset s) := by
  obtain ⟨hplatform, -, -, -, -, hmem⟩ := hs
  rcases hardwareReset_cases s with ⟨-, h⟩ | ⟨r, hr, hlen, h⟩ <;> rw [h]
  · exact resetBlock_legal hplatform hmem
  · obtain ⟨-, i, -, hdest⟩ := pendingDest_eq_some.1 hr
    have haddr : r.addr < Config.addrSpace := destOf_addr hdest ▸ BitVec.isLt _
    refine resetBlock_legal hplatform (Memory.writeBytes_wf hmem ?_)
    rw [hlen, Region.existing]
    omega

/-! ### Steps -/

/-- Settles O17: each agent's turn keeps the legal states, and the schedule is no part of them. -/
theorem everyStepKeepsLegalStates : Obligations.EveryStepKeepsLegalStates := by
  intro s t hs h
  have hturns : ∀ rest, State.legal { s with turns := rest } := fun _ => hs
  rcases step_cases h with ⟨rest, -, -, hc⟩ | ⟨rest, -, -, rfl⟩ | ⟨rest, -, hh⟩ | ⟨rest, -, rfl⟩ |
    ⟨-, -, hc⟩ | ⟨-, -, hh⟩
  · exact complete_legal (hturns rest) hc
  · exact hturns rest
  · exact hostTurn_legal (hturns rest) hh
  · exact hardwareReset_legal (hturns rest)
  · exact complete_legal hs hc
  · exact hostTurn_legal hs hh

/-- Settles O18: the reset state is that of a reset block over empty memory, and the reference platform is
in range. -/
theorem resetStateIsLegal : Obligations.ResetStateIsLegal := by
  have hlegal : ∀ p, platformLegal p → State.legal (State.resetOn p) := fun p hp =>
    resetBlock_legal (s := State.resetOn p) hp (by simp [State.resetOn, Memory.wf])
  exact ⟨hlegal, hlegal Platform.reference (by decide)⟩

end Sys2Proof.Machine
end

section
/-!
PROOFS. The obligations of spec/60_exceptions.md and spec/44_control.md: which command a step runs, how
every command ends, and what it leaves unchanged.
-/
namespace Sys2Proof.Machine

/-! ### Which command a step runs -/

theorem complete_of_decode {s : State} {i : Instr} (h : decode s.latch = .ok i) :
    complete s = exec i s := by
  simp [complete, pendingCommand, h]

theorem complete_of_decode_error {s : State} {e : IllegalWord} (h : decode s.latch = .error e) :
    complete s = .next (raiseError .illegalCommand s) := by
  simp [complete, completeIllegal, pendingCommand, h]

theorem step_of_busy_end {s : State} (hturns : s.turns = []) (hbusy : s.status.busy = true) :
    step s = complete s := by
  simp [step, hturns, hbusy]

theorem step_of_busy_engine {s : State} {rest : List Turn} (hturns : s.turns = .engine :: rest)
    (hbusy : s.status.busy = true) : step s = complete { s with turns := rest } := by
  simp [step, engineTurn, hturns, hbusy]

/-- Settles O8: on both of the engine's occasions a busy block completes, and completion goes by the
latch. -/
theorem engineStepRunsTheDecodedCommand : Obligations.EngineStepRunsTheDecodedCommand := by
  intro s hbusy
  refine ⟨fun i hi => ⟨fun hturns => ?_, fun rest hturns => ?_⟩,
    fun e he => ⟨fun hturns => ?_, fun rest hturns => ?_⟩⟩
  · rw [step_of_busy_end hturns hbusy, complete_of_decode hi]
  · rw [step_of_busy_engine hturns hbusy]
    exact complete_of_decode hi
  · rw [step_of_busy_end hturns hbusy, complete_of_decode_error he]
    rfl
  · rw [step_of_busy_engine hturns hbusy]
    exact complete_of_decode_error he

theorem tableWord_toNat (w : Word) : tableWord 32 w.toNat = w := by
  rw [tableWord, Nat.mod_eq_of_lt w.isLt, BitVec.ofNat_toNat, BitVec.setWidth_eq]

/-- Settles O9: the state holds the issued word and gives the engine the turn, which the step takes away. -/
theorem fetchWordStepRunsTheCommand : Obligations.FetchWordStepRunsTheCommand := by
  intro s w i hi
  rw [State.withFetchWord, tableWord_toNat, step_of_busy_engine (rest := s.turns) rfl rfl]
  exact complete_of_decode hi

/-! ### How every command ends -/

theorem exec_error_iff {i : Instr} {s t : State} (h : exec i s = .next t) :
    t.status.error = true ↔ t.status.errCode ≠ .noError := by
  rcases exec_cases h with ⟨code, hcode, rfl⟩ | ⟨-, rfl⟩ | ⟨-, rfl⟩ | ⟨-, rfl⟩ | ⟨-, -, rfl⟩ |
    ⟨m, -, -, rfl⟩ | ⟨-, -, rfl⟩ | ⟨-, -, rfl⟩ | ⟨-, -, rfl⟩ | ⟨-, -, rfl⟩
  case inl => simp [hcode]
  -- Every other command ends with `ERROR` and `ERR_CODE` cleared.
  all_goals simp

/-- Settles O12: every command answers a next state, in which the three fields agree. -/
theorem everyCommandEndsIdleAndDone : Obligations.EveryCommandEndsIdleAndDone := by
  intro i s
  obtain ⟨t, ht⟩ := exec_next i s
  obtain ⟨hidle, hdone⟩ := exec_idle ht
  exact ⟨t, ht, hidle, hdone, exec_error_iff ht⟩

/-! ### What commands leave unchanged -/

/-- Settles O16: a failed command writes `STATUS` alone, and each commit names the fields it writes. -/
theorem commandsWriteOnlyWhatTheMapSays : Obligations.CommandsWriteOnlyWhatTheMapSays := by
  intro i s t h hreset
  rcases exec_cases h with ⟨code, -, rfl⟩ | ⟨rfl, -⟩ | ⟨rfl, rfl⟩ | ⟨rfl, rfl⟩ | ⟨rfl, -, rfl⟩ |
    ⟨m, rfl, -, rfl⟩ | ⟨rfl, -, rfl⟩ | ⟨rfl, -, rfl⟩ | ⟨rfl, -, rfl⟩ | ⟨rfl, -, rfl⟩
  case inr.inl => exact absurd rfl hreset
  all_goals simp

/-! ### NOP, SOFT_RESET and HIST_CLEAR -/

/-- Settles O21: no checks and no writes. -/
theorem nopWritesStatusOnly : Obligations.NopWritesStatusOnly :=
  fun _ => rfl

/-- What `STATUS` reads after `SOFT_RESET` (44_control.md R252). -/
theorem softResetStatus_word :
    { Status.reset with done := true, lastOp := 0x0F : Status }.word = 0x000F0002#32 := by decide

/-- Settles O22: the next state is the reset block's, with `DONE` and the opcode in `STATUS`. -/
theorem softResetRestoresTheResetState : Obligations.SoftResetRestoresTheResetState := by
  intro s
  refine ⟨softResetState s, exec_softReset s, rfl, rfl, rfl, rfl,
    fun i hi => PaletteRam.entry_replicate _ hi, rfl, rfl, rfl, rfl, rfl, rfl, rfl, rfl, rfl,
    softResetStatus_word, by simp [State.irq]⟩

/-- Settles O23: no checks, one write. -/
theorem histClearEmptiesTheHistogram : Obligations.HistClearEmptiesTheHistogram := by
  intro s
  refine ⟨rfl, fun t ht => ?_⟩
  cases ht
  rfl

end Sys2Proof.Machine
end

section
/-!
PROOFS. What every step keeps: the parameters and a set `HAZARD` (10_state.md R63, R67), the operands of a
pending command (R58, 70_reset_and_hazards.md R303); and that no command stays pending (R306).
-/
namespace Sys2Proof.Machine

/-! ### The parameters, `HAZARD` and the host's fields -/

/-- No command touches the parameters, `HAZARD` or the host's program and schedule. -/
theorem exec_frame {i : Instr} {s t : State} (h : exec i s = .next t) :
    t.platform = s.platform ∧ t.hazard = s.hazard ∧ t.script = s.script ∧ t.turns = s.turns := by
  rcases exec_cases h with ⟨code, -, rfl⟩ | ⟨-, rfl⟩ | ⟨-, rfl⟩ | ⟨-, rfl⟩ | ⟨-, -, rfl⟩ |
    ⟨m, -, -, rfl⟩ | ⟨-, -, rfl⟩ | ⟨-, -, rfl⟩ | ⟨-, -, rfl⟩ | ⟨-, -, rfl⟩ <;>
    exact ⟨rfl, rfl, rfl, rfl⟩

theorem complete_frame {s t : State} (h : complete s = .next t) :
    t.platform = s.platform ∧ t.hazard = s.hazard ∧ t.script = s.script ∧ t.turns = s.turns := by
  rcases complete_cases h with ⟨i, -, hi⟩ | ⟨e, -, rfl⟩
  · exact exec_frame hi
  · exact ⟨rfl, rfl, rfl, rfl⟩

theorem writeReg_frame (s : State) (r : Reg) (v : Word) :
    (writeReg s r v).platform = s.platform ∧ (writeReg s r v).hazard = s.hazard := by
  rcases writeReg_cases s r v with h | ⟨-, h⟩ | ⟨-, -, h⟩ | ⟨-, h⟩ | ⟨-, h⟩ | ⟨-, ops, h⟩ |
    ⟨-, i, -, h⟩ <;> rw [h] <;> exact ⟨rfl, rfl⟩

theorem hostTurn_frame {s t : State} (h : hostTurn s = .next t) :
    t.platform = s.platform ∧ (s.hazard = true → t.hazard = true) := by
  rcases hostTurn_cases h with ⟨-, rfl⟩ | ⟨off, width, v, rest, r, -, -, rfl⟩ |
    ⟨off, width, rest, r, -, -, rfl⟩ | ⟨a, b, rest, -, -, rfl⟩ | ⟨a, rest, -, -, -, rfl⟩ |
    ⟨a, rest, -, -, -, rfl⟩ | ⟨rest, -, -, rfl⟩ | ⟨-, rest, -, rfl⟩
  case inr.inl =>
    obtain ⟨hplatform, hhazard⟩ := writeReg_frame { s with script := rest } r v
    exact ⟨hplatform, fun hs => hhazard.trans hs⟩
  -- A read notes at most a hazard; only a store or a load can set the flag, and neither clears it.
  all_goals exact ⟨rfl, fun hs => by simp [hs]⟩

theorem hardwareReset_frame (s : State) :
    (hardwareReset s).platform = s.platform ∧ (hardwareReset s).hazard = s.hazard ∧
      (hardwareReset s).script = s.script ∧ (hardwareReset s).turns = s.turns := by
  rcases hardwareReset_cases s with ⟨-, h⟩ | ⟨r, -, -, h⟩ <;> rw [h] <;> exact ⟨rfl, rfl, rfl, rfl⟩

/-- Of the parameters and `HAZARD`, a step can only set the latter. -/
theorem step_frame {s t : State} (h : step s = .next t) :
    t.platform = s.platform ∧ (s.hazard = true → t.hazard = true) := by
  rcases step_cases h with ⟨rest, -, -, hc⟩ | ⟨rest, -, -, rfl⟩ | ⟨rest, -, hh⟩ | ⟨rest, -, rfl⟩ |
    ⟨-, -, hc⟩ | ⟨-, -, hh⟩
  · obtain ⟨hplatform, hhazard, -, -⟩ := complete_frame hc
    exact ⟨hplatform, fun hs => hhazard.trans hs⟩
  · exact ⟨rfl, id⟩
  · exact hostTurn_frame (s := { s with turns := rest }) hh
  · obtain ⟨hplatform, hhazard, -, -⟩ := hardwareReset_frame { s with turns := rest }
    exact ⟨hplatform, fun hs => hhazard.trans hs⟩
  · obtain ⟨hplatform, hhazard, -, -⟩ := complete_frame hc
    exact ⟨hplatform, fun hs => hhazard.trans hs⟩
  · exact hostTurn_frame hh

/-- Settles O19: the parameters' half of what a step does to them and `HAZARD`. -/
theorem everyStepKeepsTheParameters : Obligations.EveryStepKeepsTheParameters :=
  fun _ _ h => (step_frame h).1

/-- Settles O20: the other half. -/
theorem hazardIsSticky : Obligations.HazardIsSticky :=
  fun _ _ h => (step_frame h).2

/-! ### The operands of a pending command -/

/-- `t` has the operands, the palette, the histogram, the latch, the results and `LAST_OP` of `s`. -/
abbrev heldFrom (s t : State) : Prop :=
  t.operands = s.operands ∧ t.palette = s.palette ∧ t.hist = s.hist ∧ t.latch = s.latch ∧
    t.results = s.results ∧ t.status.lastOp = s.status.lastOp

/-- A busy block drops the writes that would change an operand (10_state.md R58). -/
theorem writeReg_cases_of_busy {s : State} (hbusy : s.status.busy = true) (r : Reg) (v : Word) :
    writeReg s r v = s ∨ writeReg s r v = setOverrun s ∨
      writeReg s r v = { s with status := s.status.clearOnes v } ∨
      writeReg s r v = { s with intEn := v.setWidth 3 } := by
  have hnot : s.status.busy ≠ false := by simp [hbusy]
  rcases writeReg_cases s r v with h | ⟨-, h⟩ | ⟨hidle, -⟩ | ⟨-, h⟩ | ⟨-, h⟩ | ⟨hidle, -⟩ |
    ⟨hidle, -⟩
  · exact .inl h
  · exact .inr (.inl h)
  · exact absurd hidle hnot
  · exact .inr (.inr (.inl h))
  · exact .inr (.inr (.inr h))
  · exact absurd hidle hnot
  · exact absurd hidle hnot

theorem writeReg_holds_of_busy {s : State} (hbusy : s.status.busy = true) (r : Reg) (v : Word) :
    heldFrom s (writeReg s r v) := by
  rcases writeReg_cases_of_busy hbusy r v with h | h | h | h <;> rw [h] <;>
    exact ⟨rfl, rfl, rfl, rfl, rfl, rfl⟩

theorem hostTurn_holds_of_busy {s t : State} (hbusy : s.status.busy = true)
    (h : hostTurn s = .next t) : heldFrom s t := by
  rcases hostTurn_cases h with ⟨-, rfl⟩ | ⟨off, width, v, rest, r, -, -, rfl⟩ |
    ⟨off, width, rest, r, -, -, rfl⟩ | ⟨a, b, rest, -, -, rfl⟩ | ⟨a, rest, -, -, -, rfl⟩ |
    ⟨a, rest, -, -, -, rfl⟩ | ⟨rest, -, -, rfl⟩ | ⟨-, rest, -, rfl⟩
  case inr.inl => exact writeReg_holds_of_busy (s := { s with script := rest }) hbusy r v
  all_goals exact ⟨rfl, rfl, rfl, rfl, rfl, rfl⟩

/-- A hardware reset ends as `resetBlock` ends (70_reset_and_hazards.md R291). -/
theorem hardwareReset_fields (s : State) :
    (hardwareReset s).status = Status.reset ∧ (hardwareReset s).intEn = 0 ∧
      (hardwareReset s).operands = OperandRegs.reset ∧ (hardwareReset s).results = ResultRegs.reset ∧
      (hardwareReset s).palette = Vector.replicate 256 Rgb8.black ∧ (hardwareReset s).hist = [] ∧
      (hardwareReset s).latch = 0 :=
  ⟨rfl, rfl, rfl, rfl, rfl, rfl, rfl⟩

/-- Settles O15: completion and reset leave the block idle, so a step between busy states is the host's. -/
theorem operandsAreHeldWhileBusy : Obligations.OperandsAreHeldWhileBusy := by
  intro s t h hbusy htbusy
  have hnot : t.status.busy ≠ false := by simp [htbusy]
  rcases step_cases h with ⟨rest, -, -, hc⟩ | ⟨rest, -, hidle, -⟩ | ⟨rest, -, hh⟩ | ⟨rest, -, rfl⟩ |
    ⟨-, -, hc⟩ | ⟨-, hidle, -⟩
  · exact absurd (complete_idle hc).1 hnot
  · exact absurd hidle (by simp [hbusy])
  · exact hostTurn_holds_of_busy (s := { s with turns := rest }) hbusy hh
  · exact absurd (congrArg Status.busy (hardwareReset_fields { s with turns := rest }).1) hnot
  · exact absurd (complete_idle hc).1 hnot
  · exact absurd hidle (by simp [hbusy])

/-! ### The end of every schedule -/

theorem hostTurn_of_no_script {s : State} (h : s.script = []) : hostTurn s = .next s := by
  simp [hostTurn, h]

/-- Without a host program a step takes one turn off the schedule. -/
theorem step_takes_turn {s : State} {turn : Turn} {rest : List Turn} (hscript : s.script = [])
    (hturns : s.turns = turn :: rest) :
    ∃ t, step s = .next t ∧ t.script = [] ∧ t.turns = rest := by
  cases turn with
  | host =>
    refine ⟨{ s with turns := rest }, ?_, hscript, rfl⟩
    simp only [step, hturns]
    exact hostTurn_of_no_script hscript
  | engine =>
    cases hbusy : s.status.busy
    · exact ⟨{ s with turns := rest }, by simp [step, engineTurn, hturns, hbusy], hscript, rfl⟩
    · obtain ⟨t, ht⟩ := complete_next { s with turns := rest }
      obtain ⟨-, -, htscript, htturns⟩ := complete_frame ht
      exact ⟨t, (step_of_busy_engine hturns hbusy).trans ht, htscript.trans hscript, htturns⟩
  | reset =>
    obtain ⟨-, -, htscript, htturns⟩ := hardwareReset_frame { s with turns := rest }
    exact ⟨_, by simp only [step, hturns], htscript.trans hscript, htturns⟩

/-- Past the end of the schedule a step ends what is pending. -/
theorem step_past_end {s : State} (hscript : s.script = []) (hturns : s.turns = []) :
    ∃ t, step s = .next t ∧ t.status.busy = false ∧ t.turns = [] := by
  cases hbusy : s.status.busy
  · refine ⟨s, ?_, hbusy, hturns⟩
    simp only [step, hturns, hbusy]
    exact hostTurn_of_no_script hscript
  · obtain ⟨t, ht⟩ := complete_next s
    obtain ⟨-, -, -, htturns⟩ := complete_frame ht
    exact ⟨t, (step_of_busy_end hturns hbusy).trans ht, (complete_idle ht).1, htturns.trans hturns⟩

theorem core_run_succ {s t : State} (h : step s = .next t) (n : Nat) :
    Host.Core.run Sys2Proof.core (n + 1) s = Host.Core.run Sys2Proof.core n t := by
  have hcore : Sys2Proof.core.step s = .next t := h
  simp only [Host.Core.run, hcore]

/-- Settles O14, by induction on the schedule: each turn is one step, and the step past the end
completes. -/
theorem pendingCommandCompletesUnderEverySchedule :
    Obligations.PendingCommandCompletesUnderEverySchedule := by
  intro s
  induction hturns : s.turns generalizing s with
  | nil =>
    intro hscript
    obtain ⟨t, ht, hidle, hend⟩ := step_past_end hscript hturns
    exact ⟨t, core_run_succ ht 0, hidle, hend⟩
  | cons turn rest ih =>
    intro hscript
    obtain ⟨t, ht, htscript, htturns⟩ := step_takes_turn hscript hturns
    obtain ⟨u, hu, hidle, hend⟩ := ih t htturns htscript
    exact ⟨u, (core_run_succ ht _).trans hu, hidle, hend⟩

/-! ### The host's turn -/

/-- Settles O48: the four occasions are four branches of `step` and `hostTurn`. -/
theorem hostStepRunsTheNextStatement : Obligations.HostStepRunsTheNextStatement := by
  intro s st rest turns
  refine ⟨fun hturns hscript => ?_, fun hturns hidle hscript => ?_, fun hturns hidle hscript => ?_,
    fun hturns hscript => ?_⟩
  · simp only [step, hturns, hostTurn, hscript]
  · simp only [step, hturns, hidle, hostTurn, hscript]
    rfl
  · simp only [step, hturns, hidle, hostTurn, hscript]
    rfl
  · simp only [step, hturns, hostTurn, hscript]

end Sys2Proof.Machine
end

section
/-!
PROOFS. The obligations of spec/10_state.md and spec/30_encoding.md on what the host reads: the fields of
`STATUS`, the polling loop, which accesses reach registers, and what each register reads.
-/
namespace Sys2Proof.Machine

/-- Settles O45: flags and fields as the window's laws give them, each error by its code. -/
theorem statusWordHasItsFields : Obligations.StatusWordHasItsFields := by
  intro s v
  obtain ⟨hbusy, hdone, herror, hoverrun⟩ := Status.word_flags s.status
  obtain ⟨hreserved, hcode, hlastOp, htop⟩ := Status.word_fields s.status
  refine ⟨hbusy, hdone, herror, hoverrun, hreserved, hcode.trans ?_, hlastOp, htop⟩
  cases s.status.errCode <;> rfl

/-- Settles O49: bit 0 of the value read is `BUSY`, which the loop asks for. -/
theorem waitPollsUntilIdle : Obligations.WaitPollsUntilIdle := by
  intro s
  have hbit : (readReg s .status).getLsbD 0 = s.status.busy := (Status.word_flags s.status).1
  rw [hbit]
  cases hbusy : s.status.busy <;> simp [runStmt, hostWait, hbusy, learn, regOffset]

/-- Settles O51: an access that reaches no register is refused, and a read that reaches one is recorded. -/
theorem onlyAlignedWordAccessesReachRegisters : Obligations.OnlyAlignedWordAccessesReachRegisters := by
  intro s off width v
  constructor
  · intro h
    simp [hostRead, hostWrite, regAccess_refused h]
  · rintro rfl ha hw
    simp [hostRead, regAccess_aligned ha hw, learn]

/-- Zero extension keeps the value of `INT_EN` (10_state.md R37). -/
theorem readReg_intEn_toNat (s : State) : (readReg s .intEn).toNat = s.intEn.toNat := by
  rw [readReg, BitVec.toNat_setWidth]
  exact Nat.mod_eq_of_lt (s.intEn.isLt.trans (by decide))

/-- `HIST_DISTINCT` is not cut: the capacity is below `2^32` (00_scope.md R12, 10_state.md R51, R61). -/
theorem histDistinct_toNat {s : State} (hhist : histLegal s) (hplatform : platformLegal s.platform) :
    (histDistinct s).toNat = s.hist.length := by
  obtain ⟨-, hlength⟩ := hhist
  obtain ⟨-, -, hcapacity⟩ := hplatform
  exact Nat.mod_eq_of_lt (by omega)

/-- `PALETTE[i]` is the register at `0x400 + 4*i` (10_state.md R55). -/
theorem regAtOffset_paletteEntry (i : Nat) : regAtOffset (0x400 + 4 * i) = .palette i := by
  rw [regAtOffset_palette (Nat.le_add_right _ _), Nat.add_sub_cancel_left,
    Nat.mul_div_cancel_left _ (by decide)]

/-- Settles O52: the offsets below 0x054 are evaluated one by one; the others are one rule each. -/
theorem registerReadsFollowTheMap : Obligations.RegisterReadsFollowTheMap := by
  intro s hhist hplatform
  refine ⟨rfl, rfl, rfl, readReg_intEn_toNat s, rfl, rfl, rfl, rfl, rfl, rfl, rfl, rfl, rfl, rfl, rfl,
    rfl, rfl, histDistinct_toNat hhist hplatform, rfl, rfl, rfl, fun off hlo hhi => ?reserved,
    fun i _ => ?palette⟩
  case reserved =>
    rw [regAtOffset_reserved hlo hhi]
    rfl
  case palette =>
    rw [regAtOffset_paletteEntry]
    exact rgb8Word_toNat _

end Sys2Proof.Machine
end

section
/-!
PROOFS. The obligations of spec/00_scope.md on memory blocks and colours, and those of
spec/40_palette_extractor.md: counting pixels, and extracting the palette.
-/
namespace Sys2Proof.Machine

/-! ### Blocks of memory and colours -/

theorem Memory.readBytes_writeBytes (m : Memory) (addr : Nat) (bs : List Byte) :
    (m.writeBytes addr bs).readBytes addr bs.length = bs := by
  refine List.ext_getElem (Memory.readBytes_length _ _ _) fun j hj hj' => ?_
  rw [Memory.readBytes_getElem _ _ _ _ hj, Memory.read_writeBytes_inside hj']

/-- Settles O58: the bytes inside, those outside, and the form are one law of block writes each. -/
theorem memoryReadsBackWhatWasWritten : Obligations.MemoryReadsBackWhatWasWritten := by
  intro m addr bs hm hend
  exact ⟨Memory.readBytes_writeBytes m addr bs, fun a ha => Memory.read_writeBytes_outside ha,
    Memory.writeBytes_wf hm hend⟩

theorem topByte_toNat (c : Half) : (topByte c).toNat = c.toNat / 256 := by
  have hlt : c.toNat / 256 < 256 := by have := c.isLt; omega
  rw [topByte, BitVec.extractLsb'_toNat, Nat.shiftRight_eq_div_pow]
  exact Nat.mod_eq_of_lt hlt

/-- Settles O60: `before` is the lexicographic order as it stands, and a projected channel is a quotient. -/
theorem coloursAreOrderedLexicographically : Obligations.ColoursAreOrderedLexicographically := by
  intro c d
  refine ⟨?_, topByte_toNat c.r, topByte_toNat c.g, topByte_toNat c.b⟩
  simp only [Colour.before, Bool.or_eq_true, Bool.and_eq_true, decide_eq_true_eq, beq_iff_eq]

/-! ### Counting -/

theorem Histogram.addAll_perm {h : Histogram} (ho : Histogram.ordered h) {cs ds : List Colour}
    (hp : cs.Perm ds) : Histogram.addAll h cs = Histogram.addAll h ds := by
  refine Histogram.ext_of_countOf (Histogram.addAll_ordered ho cs) (Histogram.addAll_ordered ho ds)
    fun c => ?_
  rw [Histogram.countOf_addAll ho, Histogram.countOf_addAll ho, hp.count_eq]

/-- Settles O26: the counts say all about a histogram, and a split is a permutation. -/
theorem countingIgnoresOrderAndSplit : Obligations.CountingIgnoresOrderAndSplit := by
  intro h cs ds hwf
  refine ⟨Histogram.addAll_perm hwf.toOrdered, ?_⟩
  rw [Histogram.addAll_perm hwf.toOrdered List.perm_append_comm, Histogram.addAll_append]

/-- In an ordered histogram the entries' counts and the colours' counts have the same bounds. -/
theorem Histogram.counts_le_iff {h : Histogram} (ho : Histogram.ordered h) (b : Nat) :
    (∀ e ∈ h, e.count ≤ b) ↔ ∀ c, Histogram.countOf h c ≤ b := by
  constructor
  · intro hall c
    by_cases hc : c ∈ Histogram.dom h
    · obtain ⟨e, he, rfl⟩ := List.mem_map.1 hc
      rw [Histogram.countOf_of_mem ho he]
      exact hall e he
    · rw [Histogram.countOf_of_not_mem hc]
      exact Nat.zero_le b
  · intro hall e he
    rw [← Histogram.countOf_of_mem ho he]
    exact hall e.colour

section Accumulate

variable {s : State} (hwf : Histogram.wf s.hist)
include hwf

theorem countOf_accumulated (c : Colour) :
    Histogram.countOf (accumulated s) c = Histogram.countOf s.hist c + (inputColours s).count c :=
  Histogram.countOf_addAll hwf.toOrdered _ c

/-- The number of colours that the check of `HIST_FULL` asks for (40_palette_extractor.md R145). -/
theorem accumulated_length : (accumulated s).length = distinctAfter s :=
  Histogram.length_addAll hwf.toOrdered _

theorem accumulated_counts_le_iff :
    (∀ e ∈ accumulated s, e.count ≤ Config.countMax) ↔
      ∀ c, Histogram.countOf s.hist c + (inputColours s).count c ≤ Config.countMax := by
  simp only [← countOf_accumulated hwf]
  exact Histogram.counts_le_iff (Histogram.addAll_ordered hwf.toOrdered _) _

theorem accumulated_overflows
    (h : ∃ c, Config.countMax < Histogram.countOf s.hist c + (inputColours s).count c) :
    (accumulated s).overflows = true := by
  obtain ⟨c, hc⟩ := h
  rw [← Bool.not_eq_false, Histogram.overflows_false_iff, accumulated_counts_le_iff hwf]
  exact fun hall => Nat.not_lt.2 (hall c) hc

end Accumulate

/-- Settles O24: no check fails, and the histogram committed has the counts added. -/
theorem histAccumCountsThePixels : Obligations.HistAccumCountsThePixels := by
  intro s hwf hpixels hcapacity hcounts
  have hlength := accumulated_length hwf
  have hbounded := (accumulated_counts_le_iff hwf).2 hcounts
  have hpass : firstError (histAccumChecks s) = none :=
    (histAccumChecks_pass_iff s).2 ⟨hpixels, hlength.trans_le hcapacity, hbounded⟩
  obtain ⟨hsorted, hpos⟩ := Histogram.addAll_ordered hwf.toOrdered (inputColours s)
  refine ⟨accumulated s, ?_, ⟨hsorted, fun e he => ⟨hpos e he, hbounded e he⟩⟩, hlength,
    countOf_accumulated hwf⟩
  rw [exec_histAccum, conclude_of_pass hpass]
  rfl

/-- The first two checks of `HIST_ACCUM` ask for its pixel array (40_palette_extractor.md R145). -/
theorem firstError_histAccumChecks {s : State} (h : pixelsReady s) :
    firstError (histAccumChecks s) =
      if s.platform.histCapacity < (accumulated s).length then some .histFull
      else if (accumulated s).overflows = true then some .histOverflow else none := by
  have hrange : inRangeAt (pixelRegion s).addr (pixelRegion s).len := h.1
  have hread : admittedAt s.platform (pixelRegion s).addr (pixelRegion s).len .read := h.2
  rw [histAccumChecks, firstError_inRange, if_pos hrange, firstError_admitted, if_pos hread,
    firstError_decide, firstError_cons]
  rfl

/-- Settles O25: check by check, each behind those that pass. -/
theorem histAccumRaisesItsErrorsInOrder : Obligations.HistAccumRaisesItsErrorsInOrder := by
  intro s hwf
  refine ⟨
    fun (hrange : ¬ inRangeAt (pixelRegion s).addr (pixelRegion s).len) =>
      failsWith_of_firstError ?_,
    fun (hrange : inRangeAt (pixelRegion s).addr (pixelRegion s).len)
      (hread : ¬ admittedAt s.platform (pixelRegion s).addr (pixelRegion s).len .read) =>
      failsWith_of_firstError ?_,
    fun hpixels hfull => failsWith_of_firstError ?_,
    fun hpixels hcapacity hover => failsWith_of_firstError ?_⟩ <;> rw [checksOf]
  · rw [histAccumChecks, firstError_inRange, if_neg hrange]
  · rw [histAccumChecks, firstError_inRange, if_pos hrange, firstError_admitted, if_neg hread]
  · rw [firstError_histAccumChecks hpixels, accumulated_length hwf, if_pos hfull]
  · rw [firstError_histAccumChecks hpixels, accumulated_length hwf, if_neg (not_lt.2 hcapacity),
      if_pos (accumulated_overflows hwf hover)]

/-! ### The extracted palette -/

theorem extractsBefore_iff (e f : HistEntry) :
    extractsBefore e f = true ↔
      f.count < e.count ∨ (e.count = f.count ∧ e.colour.before f.colour = true) := by
  simp [extractsBefore]

/-- Below the number of colours taken, an entry is the projection of its colour
(40_palette_extractor.md R150). -/
theorem extractedPalette_entry_taken {order : List HistEntry} {n i : Nat} (hi : i < order.length)
    (hn : i < n) (hram : n ≤ 256) : (extractedPalette order n).entry i = order[i].colour.proj := by
  rw [extractedPalette, PaletteRam.entry_tabulate _ (hn.trans_le hram), if_pos hn,
    List.getElem?_eq_getElem hi]
  rfl

/-- The other entries are zeroed (40_palette_extractor.md R156). -/
theorem extractedPalette_entry_rest (order : List HistEntry) {n i : Nat} (hn : n ≤ i) (hi : i < 256) :
    (extractedPalette order n).entry i = ⟨0, 0, 0⟩ := by
  rw [extractedPalette, PaletteRam.entry_tabulate _ hi, if_neg (not_lt.2 hn)]

/-- Settles O27: the arrangement is the model's extraction order, a sorted permutation of the histogram. -/
theorem palExtractWritesTheSortedPalette : Obligations.PalExtractWritesTheSortedPalette := by
  intro m s hwf n hn
  have hpass : firstError (palExtractChecks m s) = none := (palExtractChecks_pass_iff m s).2 hn
  have hsorted := Histogram.extractionOrder_sorted hwf.toOrdered
  refine ⟨s.hist.extractionOrder, extractedPalette s.hist.extractionOrder n,
    Histogram.extractionOrder_perm _, hsorted.imp (extractsBefore_iff _ _).1, ?_,
    fun i hi hin => extractedPalette_entry_taken hi hin hn,
    fun i hin hi => extractedPalette_entry_rest _ hin hi⟩
  rw [exec_palExtract, conclude_of_pass hpass]
  rfl

/-- When an extraction would take more than the RAM holds (40_palette_extractor.md R150, R153). -/
theorem extractCount_exceeds_iff (m : Int) (distinct : Nat) :
    256 < extractCount m distinct ↔ (m < 0 ∨ 256 < m) ∧ 256 < distinct := by
  rcases lt_or_ge m 0 with hneg | hnonneg
  · rw [extractCount_of_neg hneg]
    simp [hneg]
  · have := extractCount_of_nonneg hnonneg distinct
    omega

/-- Settles O28: the one check of `PAL_EXTRACT` fails exactly then. -/
theorem palExtractRaisesBeyondTheRam : Obligations.PalExtractRaisesBeyondTheRam := by
  intro m s
  refine ⟨fun h => failsWith_of_firstError ?_, fun h => ?_⟩
  · rw [checksOf, palExtractChecks, firstError_decide, if_pos ((extractCount_exceeds_iff m _).2 h)]
  · have hfit : extractCount m s.hist.length ≤ 256 :=
      not_lt.1 fun hlt => h ((extractCount_exceeds_iff m _).1 hlt)
    rw [exec_palExtract, conclude_of_pass ((palExtractChecks_pass_iff m s).2 hfit)]
    exact ⟨_, rfl, rfl⟩

end Sys2Proof.Machine
end

section
/-!
PROOFS. The obligations of spec/41_nearest_quantizer.md: the nearest entry, one index byte per pixel, and
the errors of both commands.
-/
namespace Sys2Proof.Machine

/-! ### NEAREST -/

/-- Settles O31: the search returns that index with its distance, and the query's projection is its top
bytes. -/
theorem nearestFindsTheFirstClosestEntry : Obligations.NearestFindsTheFirstClosestEntry := by
  intro s hready q
  obtain ⟨hnearest, hdist⟩ := nearestIndex_correct s.palette q (n := palCountNat s) hready.1
  refine ⟨(nearestIndex s.palette q (palCountNat s)).1, hnearest, ?_⟩
  rw [exec_mapNearest_of_ready hready, ← hdist, succeed, nearestCommit, proj_queryColour]

/-- The results depend on the query through its projection alone (41_nearest_quantizer.md R170, R175). -/
theorem nearestCommit_results_congr {s u : State} (hpal : u.palette = s.palette)
    (hcount : palCountNat u = palCountNat s) (hresults : u.results = s.results)
    (hproj : (queryColour u).proj = (queryColour s).proj) :
    (nearestCommit u).results = (nearestCommit s).results := by
  rw [nearestCommit_results, nearestCommit_results, hpal, hcount, hresults, hproj]

/-- Settles O34: the two queries have one projection. -/
theorem nearestIgnoresLowBytesAndAlpha : Obligations.NearestIgnoresLowBytesAndAlpha := by
  intro s rg ba hready hr hg hb
  refine ⟨_, _, exec_mapNearest_of_ready hready, exec_mapNearest_of_ready hready,
    nearestCommit_results_congr rfl rfl rfl ?_⟩
  rw [proj_queryColour, proj_queryColour, hr, hg, hb]

/-! ### The errors of the palette -/

theorem paletteChecks_boundsPalette {s : State} (h : 256 < s.operands.palCount.toNat)
    (cs : List Check) : firstError (paletteChecks s ++ cs) = some .boundsPalette := by
  rw [paletteChecks, List.cons_append, firstError_decide]
  exact if_pos h

theorem paletteChecks_emptyPalette {s : State} (h : s.operands.palCount.toNat = 0)
    (cs : List Check) : firstError (paletteChecks s ++ cs) = some .emptyPalette := by
  have hfits : ¬ Config.paletteSize < palCountNat s := by rw [palCountNat, h]; decide
  rw [paletteChecks, List.cons_append, firstError_decide, if_neg hfits, List.cons_append,
    firstError_decide]
  exact if_pos h

/-- Settles O32: `NEAREST` makes the palette checks and no other. -/
theorem nearestRaisesItsErrorsInOrder : Obligations.NearestRaisesItsErrorsInOrder := by
  intro s
  refine ⟨fun h => failsWith_of_firstError ?_, fun h => failsWith_of_firstError ?_⟩ <;>
    rw [checksOf, ← List.append_nil (paletteChecks s)]
  · exact paletteChecks_boundsPalette h []
  · exact paletteChecks_emptyPalette h []

/-! ### QUANTIZE -/

/-- Settles O36: the palette checks come first, then those of the two regions. -/
theorem quantizeRaisesItsErrorsInOrder : Obligations.QuantizeRaisesItsErrorsInOrder := by
  intro s src dst n
  refine ⟨fun h => failsWith_of_firstError ?_, fun h => failsWith_of_firstError ?_,
    fun hpal h => failsWith_of_firstError ?_,
    fun hpal hsrc hdst h => failsWith_of_firstError ?_,
    fun hpal hsrc hdst hread hwrite h => failsWith_of_firstError ?_⟩ <;>
    rw [checksOf, quantizeChecks_eq]
  · exact paletteChecks_boundsPalette h _
  · exact paletteChecks_emptyPalette h _
  · rw [firstError_paletteChecks hpal]
    exact regionChecks_addrRange h
  · rw [firstError_paletteChecks hpal]
    exact regionChecks_busError hsrc hdst h
  · rw [firstError_paletteChecks hpal]
    exact regionChecks_overlap hsrc hdst hread hwrite h

/-- After the writes of `QUANTIZE`, the byte at `DST_ADDR + k` is the index byte of pixel `k`
(41_nearest_quantizer.md R176, R177). -/
theorem quantizeCommit_read (s : State) {k : Nat} (hk : k < s.operands.pixCount.toNat) :
    (quantizeCommit s).mem.read (s.operands.dstAddr.toNat + k) =
      quantizeColour s (pixelAt s.mem (s.operands.srcAddr.toNat + 8 * k)) := by
  have hlen : k < (quantizeOutput s).length := by rw [quantizeOutput_length]; exact hk
  rw [quantizeCommit_mem, Memory.read_writeBytes_inside hlen, quantizeOutput_getElem]

theorem quantizeCommit_read_outside (s : State) {a : Nat} (h : a < s.operands.dstAddr.toNat ∨
    s.operands.dstAddr.toNat + s.operands.pixCount.toNat ≤ a) :
    (quantizeCommit s).mem.read a = s.mem.read a :=
  Memory.read_writeBytes_outside (by rw [quantizeOutput_length]; exact h)

/-- Settles O35: each output byte is the result of the search for its pixel. -/
theorem quantizeWritesOneIndexPerPixel : Obligations.QuantizeWritesOneIndexPerPixel := by
  intro s hready
  refine ⟨(quantizeCommit s).mem, exec_mapQuantize_of_ready hready, fun k hk => ?_,
    fun a ha => quantizeCommit_read_outside s ha⟩
  obtain ⟨hnearest, -⟩ := nearestIndex_correct s.palette
    (pixelAt s.mem (s.operands.srcAddr.toNat + 8 * k)).proj (n := palCountNat s) hready.1.1
  exact ⟨_, hnearest, quantizeCommit_read s hk⟩

/-- Settles O37: both bytes are the index byte of one colour in one palette. -/
theorem quantizedByteDependsOnItsPixelOnly : Obligations.QuantizedByteDependsOnItsPixelOnly := by
  intro s u k j hs hu hpal hcount hk hj hpixel
  refine ⟨_, _, exec_mapQuantize_of_ready hs, exec_mapQuantize_of_ready hu, ?_⟩
  rw [succeed_mem, succeed_mem, quantizeCommit_read s hk, quantizeCommit_read u hj, hpixel,
    quantizeColour, quantizeColour, palCountNat, palCountNat, hpal, hcount]

end Sys2Proof.Machine
end

section
/-!
PROOFS. The obligations of spec/42_sag_encoder.md: the header `ENCODE` writes, and its errors.
-/
namespace Sys2Proof.Machine

/-! ### The header in memory -/

/-- The header of the stream that `ENCODE` writes (42_sag_encoder.md R191). -/
abbrev encodeHeader (s : State) : List Byte :=
  headerBytes s.operands.width.toNat s.operands.height.toNat s.operands.frameCount.toNat
    (encodeDelay s) s.palette (palCountNat s)

theorem encodeCommit_read_header (s : State) {o : Nat} {b : Byte} (ho : o < 780)
    (h : (encodeHeader s)[o]? = some b) :
    (encodeCommit s).mem.read (s.operands.dstAddr.toNat + o) = b :=
  encodeCommit_read s ((encodeOutput_header s ho).trans h)

/-- A 16-bit field of the header reads back as the number it holds (42_sag_encoder.md R191). -/
theorem encodeCommit_readBe16 (s : State) {o v : Nat} (ho : o + 1 < 780) (hv : v ≤ 65535)
    (hhi : (encodeHeader s)[o]? = some (BitVec.ofNat 8 (v / 256)))
    (hlo : (encodeHeader s)[o + 1]? = some (BitVec.ofNat 8 (v % 256))) :
    (encodeCommit s).mem.readBe16 (s.operands.dstAddr.toNat + o) = v := by
  rw [Memory.readBe16, encodeCommit_read_header s (by omega) hhi, Nat.add_assoc,
    encodeCommit_read_header s ho hlo, be16_ofNat hv]

theorem encodeCommit_signature (s : State) :
    (encodeCommit s).mem.read s.operands.dstAddr.toNat = 0x53#8 ∧
      (encodeCommit s).mem.read (s.operands.dstAddr.toNat + 1) = 0x41#8 ∧
      (encodeCommit s).mem.read (s.operands.dstAddr.toNat + 2) = 0x47#8 ∧
      (encodeCommit s).mem.read (s.operands.dstAddr.toNat + 3) = 0x01#8 :=
  ⟨encodeCommit_read_header s (o := 0) (by decide) rfl,
    encodeCommit_read_header s (o := 1) (by decide) rfl,
    encodeCommit_read_header s (o := 2) (by decide) rfl,
    encodeCommit_read_header s (o := 3) (by decide) rfl⟩

/-- With a legal image the header reads back field by field (42_sag_encoder.md R191). -/
theorem encodeCommit_headerAt {s : State} (h : imageReady s) :
    headerAt (encodeCommit s).mem s.operands.dstAddr.toNat =
      ⟨0x01#8, s.operands.width.toNat, s.operands.height.toNat, s.operands.frameCount.toNat,
        s.operands.delay.toNat * s.platform.delayUnitMs⟩ := by
  obtain ⟨-, hw, -, hh, hf, -, hd⟩ := h
  obtain ⟨-, -, -, hversion⟩ := encodeCommit_signature s
  rw [headerAt, hversion, encodeCommit_readBe16 s (o := 4) (by decide) hw rfl rfl,
    encodeCommit_readBe16 s (o := 6) (by decide) hh rfl rfl,
    encodeCommit_readBe16 s (o := 8) (by decide) hf rfl rfl,
    encodeCommit_readBe16 s (o := 10) (by decide) hd rfl rfl]

/-- Byte `j` of palette slot `i` in memory (42_sag_encoder.md R191, R192). -/
theorem encodeCommit_read_slot (s : State) {i j : Nat} (hi : i < 256)
    (hj : j < (slotBytes s.palette (palCountNat s) i).length) :
    (encodeCommit s).mem.read (s.operands.dstAddr.toNat + (12 + 3 * i + j)) =
      (slotBytes s.palette (palCountNat s) i)[j] := by
  have hj3 : j < 3 := by rwa [slotBytes_length] at hj
  refine encodeCommit_read_header s (by omega) ?_
  rw [encodeHeader, headerBytes_slot _ _ _ _ _ _ _ _ hi hj3, List.getElem?_eq_getElem hj]

theorem encodeCommit_readBytes_slot (s : State) {i : Nat} (hi : i < 256) :
    (encodeCommit s).mem.readBytes (s.operands.dstAddr.toNat + 12 + 3 * i) 3 =
      slotBytes s.palette (palCountNat s) i := by
  refine List.ext_getElem ?_ fun j hj hj' => ?_
  · rw [Memory.readBytes_length, slotBytes_length]
  · rw [Memory.readBytes_getElem _ _ _ _ hj, Nat.add_assoc, Nat.add_assoc, ← Nat.add_assoc 12,
      encodeCommit_read_slot s hi hj']

theorem encodeCommit_read_outside (s : State) {a : Nat} (h : a < s.operands.dstAddr.toNat ∨
    s.operands.dstAddr.toNat + encodeDstLen s ≤ a) :
    (encodeCommit s).mem.read a = s.mem.read a :=
  Memory.read_writeBytes_outside (by rw [encodeOutput_length]; exact h)

/-- Settles O38: the header is read back field by field and slot by slot. -/
theorem encodeWritesTheHeader : Obligations.EncodeWritesTheHeader := by
  intro s hready
  have hheader := encodeCommit_headerAt hready.1
  simp only [headerAt, Header.mk.injEq] at hheader
  obtain ⟨-, hwidth, hheight, hframes, hdelay⟩ := hheader
  obtain ⟨h0, h1, h2, h3⟩ := encodeCommit_signature s
  refine ⟨(encodeCommit s).mem, exec_sagEncode_of_ready hready, ?_, hwidth, hheight, hframes, hdelay,
    fun i hi => encodeCommit_readBytes_slot s hi, fun a ha => encodeCommit_read_outside s ha⟩
  simp [Memory.readBytes, List.range_succ, -encodeCommit_mem, h0, h1, h2, h3]

/-! ### The errors of ENCODE -/

/-- The first check of `ENCODE` asks for the dimensions (42_sag_encoder.md R200). -/
theorem firstError_encodeChecks_dims (s : State) :
    firstError (encodeChecks s) =
      if 1 ≤ s.operands.width.toNat ∧ s.operands.width.toNat ≤ 65535 ∧
        1 ≤ s.operands.height.toNat ∧ s.operands.height.toNat ≤ 65535 ∧
        s.operands.frameCount.toNat ≤ 65535
      then firstError ((encodeChecks s).drop 1) else some .boundsDim := by
  split
  · rename_i h
    obtain ⟨hw, hw', hh, hh', hf⟩ := h
    exact firstError_cons_of_pass _ _ (dimension_check_passes hw hw' hh hh' hf)
  · rename_i h
    refine firstError_cons_of_fail _ _ ?_
    simp only [Bool.or_eq_true, decide_eq_true_eq, Config.fieldMax]
    omega

/-- Settles O40: the three checks on the image come first, then those of the two regions. -/
theorem encodeRaisesItsErrorsInOrder : Obligations.EncodeRaisesItsErrorsInOrder := by
  intro s w h f src dst dimsOk
  refine ⟨fun hbad => failsWith_of_firstError ?_,
    fun hdims hpal => failsWith_of_firstError ?_,
    fun hdims hpal hdelay => failsWith_of_firstError ?_,
    fun himage hbad => failsWith_of_firstError ?_,
    fun himage hsrc hdst hbad => failsWith_of_firstError ?_,
    fun himage hsrc hdst hread hwrite hbad => failsWith_of_firstError ?_⟩ <;> rw [checksOf]
  · rw [firstError_encodeChecks_dims, if_neg hbad]
  · rw [firstError_encodeChecks_dims, if_pos hdims, encodeChecks, List.drop_one, List.tail_cons,
      firstError_decide]
    exact if_pos hpal
  · have hfits : ¬ Config.paletteSize < palCountNat s := not_lt.2 hpal
    rw [firstError_encodeChecks_dims, if_pos hdims, encodeChecks, List.drop_one, List.tail_cons,
      firstError_decide, if_neg hfits, firstError_decide]
    exact if_pos hdelay
  · rw [firstError_encodeChecks himage, drop_encodeChecks]
    exact regionChecks_addrRange hbad
  · rw [firstError_encodeChecks himage, drop_encodeChecks]
    exact regionChecks_busError hsrc hdst hbad
  · rw [firstError_encodeChecks himage, drop_encodeChecks]
    exact regionChecks_overlap hsrc hdst hread hwrite hbad

end Sys2Proof.Machine
end

section
/-!
PROOFS. The obligations of spec/43_sag_decoder.md: what `DECODE` writes, its errors, and the round trip.
-/
namespace Sys2Proof.Machine

/-! ### The errors of DECODE -/

theorem firstError_signature (s : State) (e : ErrorCode) (cs : List Check) :
    firstError ((fun _ => !signatureOk s, e) :: cs) =
      if inputSigned s then firstError cs else some e := by
  simp only [firstError_cons, Bool.not_eq_true', ← Bool.not_eq_true, signatureOk_iff, ite_not]

/-- The checks of `DECODE` on its source, as cases (43_sag_decoder.md R230, checks 1 to 6). -/
theorem firstError_decodeChecks_source (s : State) :
    firstError (decodeChecks s) =
      if inRangeAt s.operands.srcAddr.toNat s.operands.srcLen.toNat then
        if s.operands.srcLen.toNat < 780 then some .formatTruncHeader
        else if admittedAt s.platform s.operands.srcAddr.toNat 780 .read then
          if inputSigned s then
            if s.operands.srcLen.toNat < inputNeed s then some .formatTruncFrame
            else if admittedAt s.platform (s.operands.srcAddr.toNat + 780) (inputNeed s - 780) .read then
              firstError ((decodeChecks s).drop 6)
            else some .busError
          else some .formatSignature
        else some .busError
      else some .addrRange := by
  conv_lhs =>
    rw [decodeChecks, firstError_inRange, firstError_decide, firstError_admitted,
      firstError_signature, firstError_decide, firstError_admitted]
  rfl

/-- The checks of `DECODE` on its destination, as cases (43_sag_decoder.md R230, checks 7 to 9). -/
theorem firstError_decodeChecks_dest {s : State} (h : inputReady s) :
    firstError (decodeChecks s) =
      if inRangeAt s.operands.dstAddr.toNat (inputPixels s) then
        if admittedAt s.platform s.operands.dstAddr.toNat (inputPixels s) .write then
          if overlapAt s.operands.srcAddr.toNat (inputNeed s) s.operands.dstAddr.toNat (inputPixels s)
          then some .overlap else none
        else some .busError
      else some .addrRange := by
  rw [firstError_decodeChecks h]
  simp only [decodeChecks, List.drop, firstError_inRange, firstError_admitted, firstError_overlaps]
  rfl

/-- Settles O42: the cases on the source, then, with a whole readable stream, those on the destination. -/
theorem decodeRaisesItsErrorsInOrder : Obligations.DecodeRaisesItsErrorsInOrder := by
  intro s src len dst
  refine ⟨fun hrange => failsWith_of_firstError ?_,
    fun hrange hlen => failsWith_of_firstError ?_,
    fun hrange hlen hread => failsWith_of_firstError ?_,
    fun hrange hlen hread hsign => failsWith_of_firstError ?_,
    fun hrange hlen hread hsign hneed => failsWith_of_firstError ?_,
    fun hrange hlen hread hsign hneed hframes => failsWith_of_firstError ?_,
    fun hinput hdst => failsWith_of_firstError ?_,
    fun hinput hdst hwrite => failsWith_of_firstError ?_,
    fun hinput hdst hwrite hlap => failsWith_of_firstError ?_⟩ <;> rw [checksOf]
  · rw [firstError_decodeChecks_source, if_neg hrange]
  · rw [firstError_decodeChecks_source, if_pos hrange, if_pos hlen]
  · rw [firstError_decodeChecks_source, if_pos hrange, if_neg (not_lt.2 hlen), if_neg hread]
  · rw [firstError_decodeChecks_source, if_pos hrange, if_neg (not_lt.2 hlen), if_pos hread,
      if_neg hsign]
  · rw [firstError_decodeChecks_source, if_pos hrange, if_neg (not_lt.2 hlen), if_pos hread,
      if_pos hsign, if_pos hneed]
  · rw [firstError_decodeChecks_source, if_pos hrange, if_neg (not_lt.2 hlen), if_pos hread,
      if_pos hsign, if_neg (not_lt.2 hneed), if_neg hframes]
  · rw [firstError_decodeChecks_dest hinput, if_neg hdst]
  · rw [firstError_decodeChecks_dest hinput, if_pos hdst, if_neg hwrite]
  · rw [firstError_decodeChecks_dest hinput, if_pos hdst, if_pos hwrite, if_pos hlap]

/-! ### What DECODE writes -/

theorem decodeCommit_read_outside (s : State) {a : Nat} (h : a < s.operands.dstAddr.toNat ∨
    s.operands.dstAddr.toNat + inputPixels s ≤ a) : (decodeCommit s).mem.read a = s.mem.read a :=
  Memory.read_writeBytes_outside (by rw [decodeOutput_length_source]; exact h)

/-- Palette entry `i` is header slot `i` (43_sag_decoder.md R230). -/
theorem decodeCommit_palette_entry (s : State) {i : Nat} (hi : i < 256) :
    (decodeCommit s).palette.entry i = headerSlot s.mem s.operands.srcAddr.toNat i := by
  rw [decodeCommit_palette, PaletteRam.entry_tabulate _ hi]

/-- Settles O41: the commit's fields are those named, its palette is the slots and its memory the pixels. -/
theorem decodeWritesFramesPaletteAndHeader : Obligations.DecodeWritesFramesPaletteAndHeader := by
  intro s hready src dst w h frames delay
  exact ⟨(decodeCommit s).mem, (decodeCommit s).palette, exec_sagDecode_of_ready hready,
    fun i hi => decodeCommit_palette_entry s hi,
    fun f y x hf hy hx => decodeCommit_read_frameAddr s hf hy hx,
    fun a ha => decodeCommit_read_outside s ha⟩

/-! ### The round trip -/

/-- The state after `ENCODE` in which `DECODE` is given the stream and the destination `u`. -/
def decodeOfEncode (s : State) (u : Word) : State :=
  { succeed (encodeCommit s) with
    operands := { s.operands with
      srcAddr := s.operands.dstAddr, srcLen := BitVec.ofNat 32 (encodeDstLen s), dstAddr := u } }

section RoundTrip

variable {s : State} {u : Word} (hready : encodeReady s)
include hready

/-- A stream in range has a length of 32 bits (20_memory.md R88). -/
theorem decodeOfEncode_srcLen : (decodeOfEncode s u).operands.srcLen.toNat = encodeDstLen s := by
  obtain ⟨-, -, ⟨hlen, -⟩, -⟩ := hready
  exact Nat.mod_eq_of_lt (by omega)

theorem decodeOfEncode_header :
    inputHeader (decodeOfEncode s u) =
      ⟨0x01#8, s.operands.width.toNat, s.operands.height.toNat, s.operands.frameCount.toNat,
        s.operands.delay.toNat * s.platform.delayUnitMs⟩ :=
  encodeCommit_headerAt hready.1

theorem decodeOfEncode_need : inputNeed (decodeOfEncode s u) = encodeDstLen s := by
  rw [inputNeed, decodeOfEncode_header hready]

theorem decodeOfEncode_pixels : inputPixels (decodeOfEncode s u) = encodeSrcLen s := by
  rw [inputPixels, decodeOfEncode_header hready]

/-- The stream passes every check of `DECODE` on its source, and `u` those on the destination
(43_sag_decoder.md R230, R238). -/
theorem decodeReady_decodeOfEncode
    (hread : admittedAt s.platform s.operands.dstAddr.toNat (encodeDstLen s) .read)
    (hrange : inRangeAt u.toNat (encodeSrcLen s))
    (hwrite : admittedAt s.platform u.toNat (encodeSrcLen s) .write)
    (hlap : ¬ overlapAt s.operands.dstAddr.toNat (encodeDstLen s) u.toNat (encodeSrcLen s)) :
    decodeReady (decodeOfEncode s u) := by
  obtain ⟨h0, h1, h2, -⟩ := encodeCommit_signature s
  unfold decodeReady inputReady
  rw [decodeOfEncode_srcLen hready, decodeOfEncode_need hready, decodeOfEncode_pixels hready]
  have hheader : 780 ≤ encodeDstLen s := Nat.le_add_right _ _
  refine ⟨⟨hready.2.2.1, hheader, fun j hj => hread j (hj.trans_le hheader), ⟨h0, h1, h2⟩, le_refl _,
    fun j hj => ?_⟩, hrange, hwrite, hlap⟩
  rw [Nat.add_assoc]
  exact hread (780 + j) (by omega)

/-- After both commands the byte of each pixel at `u` is the byte that was encoded
(43_sag_decoder.md R238). -/
theorem decodeOfEncode_read_frameAddr {f y x : Nat} (hf : f < s.operands.frameCount.toNat)
    (hy : y < s.operands.height.toNat) (hx : x < s.operands.width.toNat) :
    (decodeCommit (decodeOfEncode s u)).mem.read
        (frameAddr u.toNat s.operands.width.toNat s.operands.height.toNat f x y) =
      s.mem.read (frameAddr s.operands.srcAddr.toNat s.operands.width.toNat
        s.operands.height.toNat f x y) := by
  have hhdr := decodeOfEncode_header (u := u) hready
  have hdecode := decodeCommit_read_frameAddr (decodeOfEncode s u) (f := f) (y := y) (x := x)
    (by rwa [hhdr]) (by rwa [hhdr]) (by rwa [hhdr])
  rw [hhdr] at hdecode
  exact hdecode.trans (encodeCommit_read_index s hf hy hx)

/-- The header gives the image size and the delay back (43_sag_decoder.md R238). -/
theorem decodeOfEncode_operands (hunit : 1 ≤ s.platform.delayUnitMs) :
    (decodeCommit (decodeOfEncode s u)).operands.width = s.operands.width ∧
      (decodeCommit (decodeOfEncode s u)).operands.height = s.operands.height ∧
      (decodeCommit (decodeOfEncode s u)).operands.frameCount = s.operands.frameCount ∧
      (decodeCommit (decodeOfEncode s u)).operands.delay = s.operands.delay := by
  have hhdr : sourceHeader (decodeOfEncode s u) = _ := decodeOfEncode_header hready
  have hdelay : s.operands.delay.toNat * s.platform.delayUnitMs /
      (decodeOfEncode s u).platform.delayUnitMs = s.operands.delay.toNat :=
    Nat.mul_div_cancel _ hunit
  simp only [decodeCommit_operands, hhdr, hdelay, BitVec.ofNat_toNat, BitVec.setWidth_eq, and_self]

end RoundTrip

theorem headerSlot_of_readBytes {m : Memory} {base i : Nat} {e : Rgb8}
    (h : m.readBytes (base + 12 + 3 * i) 3 = [e.r, e.g, e.b]) : headerSlot m base i = e := by
  have h1 : base + 13 + 3 * i = base + 12 + 3 * i + 1 := Nat.add_right_comm (base + 12) 1 _
  have h2 : base + 14 + 3 * i = base + 12 + 3 * i + 2 := Nat.add_right_comm (base + 12) 2 _
  simp only [Memory.readBytes, List.range_succ, List.range_zero, List.nil_append, List.cons_append,
    List.map_cons, List.map_nil, List.cons.injEq, and_true] at h
  obtain ⟨hr, hg, hb⟩ := h
  rw [headerSlot, h1, h2, hg, hb]
  exact congrArg (fun r => Rgb8.mk r e.g e.b) hr

/-- The palette slots of the stream are the entries in use, then zeroes (42_sag_encoder.md R192). -/
theorem decodeOfEncode_palette_entry (s : State) (u : Word) {i : Nat} (hi : i < 256) :
    (decodeCommit (decodeOfEncode s u)).palette.entry i =
      if i < s.operands.palCount.toNat then s.palette.entry i else ⟨0, 0, 0⟩ := by
  have hslot := encodeCommit_readBytes_slot s hi
  rw [decodeCommit_palette_entry _ hi]
  refine headerSlot_of_readBytes (hslot.trans ?_)
  rw [slotBytes, palCountNat]
  split <;> rfl

/-- Every byte of the frames is the byte of a pixel (20_memory.md R85). -/
theorem exists_pixel_of_lt {w h frames j : Nat} (hw : 1 ≤ w) (hh : 1 ≤ h) (hj : j < frames * w * h) :
    ∃ f y x, f < frames ∧ y < h ∧ x < w ∧ j = f * w * h + y * w + x := by
  have hrow : j / w < frames * h := by
    rw [Nat.div_lt_iff_lt_mul hw]
    calc j < frames * w * h := hj
      _ = frames * h * w := by ring
  refine ⟨j / w / h, j / w % h, j % w, (Nat.div_lt_iff_lt_mul hh).2 hrow, Nat.mod_lt _ hh,
    Nat.mod_lt _ hw, ?_⟩
  calc j = w * (j / w) + j % w := (Nat.div_add_mod j w).symm
    _ = w * (h * (j / w / h) + j / w % h) + j % w := by rw [Nat.div_add_mod (j / w) h]
    _ = j / w / h * w * h + j / w % h * w + j % w := by ring

/-- Settles O44: `DECODE` reads the header, the slots and the index bytes where `ENCODE` put them. -/
theorem decodeOfEncodeReturnsTheFrames : Obligations.DecodeOfEncodeReturnsTheFrames := by
  intro s u hready hunit hread hrange hwrite hlap
  have hdecode := decodeReady_decodeOfEncode hready hread hrange hwrite hlap
  obtain ⟨hwidth, hheight, hframes, hdelay⟩ := decodeOfEncode_operands (u := u) hready hunit
  refine ⟨_, _, exec_sagEncode_of_ready hready, exec_sagDecode_of_ready hdecode, rfl,
    fun j hj => ?pixel, hwidth, hheight, hframes, hdelay, rfl,
    fun i hi => decodeOfEncode_palette_entry s u hi⟩
  obtain ⟨hw, -, hh, -⟩ := hready.1
  obtain ⟨f, y, x, hf, hy, hx, rfl⟩ := exists_pixel_of_lt hw hh hj
  have hbyte := decodeOfEncode_read_frameAddr (u := u) hready hf hy hx
  simp only [frameAddr, Nat.add_assoc] at hbyte ⊢
  exact hbyte

end Sys2Proof.Machine
end

section
/-!
PROOFS. The obligations of spec/70_reset_and_hazards.md: the hardware reset, and the two hazard rules of host
accesses to memory.
-/
namespace Sys2Proof.Machine

/-! ### Hardware reset -/

/-- Outside the destination of a pending command a hardware reset changes no byte
(70_reset_and_hazards.md R292, R293). -/
theorem hardwareReset_read {s : State} {a : Nat}
    (h : ∀ r, pendingDest s = some r → ¬ (r.addr ≤ a ∧ a < r.addr + r.len)) :
    (hardwareReset s).mem.read a = s.mem.read a := by
  rcases hardwareReset_cases s with ⟨-, he⟩ | ⟨r, hr, hlen, he⟩
  · rw [he, resetBlock_mem]
  · have hexisting : r.existing ≤ r.len := min_le_left _ _
    have hout := h r hr
    rw [he, resetBlock_mem, Memory.read_writeBytes_outside]
    omega

theorem pendingDest_of_idle {s : State} (h : s.status.busy = false) : pendingDest s = none := by
  simp [pendingDest, h]

theorem pendingSource_of_idle {s : State} (h : s.status.busy = false) : pendingSource s = none := by
  simp [pendingSource, h]

theorem hardwareReset_mem_of_idle {s : State} (h : s.status.busy = false) :
    (hardwareReset s).mem = s.mem := by
  rcases hardwareReset_cases s with ⟨-, he⟩ | ⟨r, hr, -, -⟩
  · rw [he, resetBlock_mem]
  · rw [pendingDest_of_idle h] at hr
    cases hr

/-- Settles O55: the reset turn is a hardware reset of the state without that turn. -/
theorem hardwareResetKeepsMemoryOutsideTheDestination :
    Obligations.HardwareResetKeepsMemoryOutsideTheDestination := by
  intro s rest hturns
  obtain ⟨hstatus, hintEn, hoperands, hresults, hpalette, hhist, hlatch⟩ :=
    hardwareReset_fields { s with turns := rest }
  obtain ⟨hplatform, hhazard, hscript, hturns'⟩ := hardwareReset_frame { s with turns := rest }
  refine ⟨hardwareReset { s with turns := rest }, by simp only [step, hturns], hstatus, hintEn,
    hoperands, hresults, fun i hi => ?_, hhist, hlatch, hhazard, hplatform, hscript, hturns',
    fun hidle => hardwareReset_mem_of_idle hidle, fun a ha => hardwareReset_read fun r hr => ?_⟩
  · rw [hpalette, PaletteRam.entry_replicate _ hi]
  · obtain ⟨-, i, hi, hdest⟩ := pendingDest_eq_some.1 hr
    exact ha i r hi hdest

/-! ### The regions of a pending command -/

theorem inRegion_some {r : Region} {a : Nat} :
    inRegion (some r) a = true ↔ r.addr ≤ a ∧ a < r.addr + r.len :=
  Region.contains_iff r a

theorem writeHazard_of_idle {s : State} (a : Nat) (h : s.status.busy = false) :
    writeHazard s a = false := by
  rw [writeHazard, pendingSource_of_idle h, pendingDest_of_idle h]
  rfl

section Pending

variable {s : State} (hbusy : s.status.busy = true)
include hbusy

theorem writeHazard_of_pending {i : Instr} (a : Nat) (hi : decode s.latch = .ok i) :
    writeHazard s a = (inRegion (sourceOf s i) a || inRegion (destOf s i) a) := by
  simp [writeHazard, pendingSource, pendingDest, pendingCommand, hbusy, hi]

theorem writeHazard_of_illegal {e : IllegalWord} (a : Nat) (he : decode s.latch = .error e) :
    writeHazard s a = false := by
  simp [writeHazard, pendingSource, pendingDest, pendingCommand, hbusy, he, inRegion]

/-- For a command with both regions (70_reset_and_hazards.md R300). -/
theorem writeHazard_iff_of_regions {i : Instr} {src dst : Region} (a : Nat)
    (hi : decode s.latch = .ok i) (hsrc : sourceOf s i = some src) (hdst : destOf s i = some dst) :
    writeHazard s a = true ↔
      (src.addr ≤ a ∧ a < src.addr + src.len) ∨ (dst.addr ≤ a ∧ a < dst.addr + dst.len) := by
  rw [writeHazard_of_pending hbusy a hi, hsrc, hdst, Bool.or_eq_true, inRegion_some, inRegion_some]

/-- For a command that only reads (70_reset_and_hazards.md R300). -/
theorem writeHazard_iff_of_source {i : Instr} {src : Region} (a : Nat)
    (hi : decode s.latch = .ok i) (hsrc : sourceOf s i = some src) (hdst : destOf s i = none) :
    writeHazard s a = true ↔ src.addr ≤ a ∧ a < src.addr + src.len := by
  rw [writeHazard_of_pending hbusy a hi, hsrc, hdst, inRegion, inRegion, Bool.or_false,
    Region.contains_iff]

/-- For a command without regions (70_reset_and_hazards.md R300). -/
theorem writeHazard_of_no_region {i : Instr} (a : Nat) (hi : decode s.latch = .ok i)
    (hsrc : sourceOf s i = none) (hdst : destOf s i = none) : writeHazard s a = false := by
  rw [writeHazard_of_pending hbusy a hi, hsrc, hdst]
  rfl

end Pending

theorem destOf_sagDecode_short {s : State} (h : s.operands.srcLen.toNat < 780) :
    destOf s .sagDecode = none :=
  if_pos h

/-- A field of a header below `2^32` is the one in memory (70_reset_and_hazards.md R300). -/
theorem pendingField_eq_readBe16 {s : State} {o : Nat} (ho : o + 1 < 780)
    (h : s.operands.srcAddr.toNat + 780 ≤ 4294967296) :
    pendingField s o = s.mem.readBe16 (s.operands.srcAddr.toNat + o) := by
  have hhi : s.operands.srcAddr.toNat + o < Config.addrSpace := by simp only [Config.addrSpace]; omega
  have hlo : s.operands.srcAddr.toNat + o + 1 < Config.addrSpace := by
    simp only [Config.addrSpace]; omega
  rw [pendingField, pendingHeaderByte, if_pos hhi, pendingHeaderByte, if_pos hlo, Memory.readBe16]

theorem destOf_sagDecode_whole {s : State} (hlen : 780 ≤ s.operands.srcLen.toNat)
    (h : s.operands.srcAddr.toNat + 780 ≤ 4294967296) :
    destOf s .sagDecode = some ⟨s.operands.dstAddr.toNat, inputPixels s⟩ := by
  have hwhole : ¬ s.operands.srcLen.toNat < Config.headerLen := not_lt.2 hlen
  rw [destOf, if_neg hwhole, pendingField_eq_readBe16 (by decide) h,
    pendingField_eq_readBe16 (by decide) h, pendingField_eq_readBe16 (by decide) h]
  rfl

/-! ### Hazard rule 1 -/

theorem hostStore_eq {a : Nat} (h : a < 4294967296) (b : Byte) (s : State) :
    hostStore a b s = .next (noteHazard (writeHazard s a) { s with mem := s.mem.write a b }) :=
  if_pos h

/-- Settles O56: the store notes `writeHazard`, which the regions of each command say. -/
theorem hostStoreIntoPendingRegionsIsAHazard : Obligations.HostStoreIntoPendingRegionsIsAHazard := by
  intro s a b ha
  refine ⟨_, hostStore_eq ha b s, fun x => Memory.read_write s.mem a x b, rfl,
    fun hset => by simp [hset], fun hidle => by simp [writeHazard_of_idle a hidle], fun hclear hbusy => ?_⟩
  simp only [noteHazard_hazard, hclear, Bool.false_or]
  refine ⟨fun hi => ?accum, fun hi => ?quantize, fun hi => ?encode, fun hi hshort => ?short,
    fun hi hlen hend => ?whole, fun hi hlo hhi => ?source, fun hnone => ?none⟩
  case accum => exact writeHazard_iff_of_source hbusy a hi rfl rfl
  case quantize => exact writeHazard_iff_of_regions hbusy a hi rfl rfl
  case encode => exact writeHazard_iff_of_regions hbusy a hi rfl rfl
  case short => exact writeHazard_iff_of_source hbusy a hi rfl (destOf_sagDecode_short hshort)
  case whole => exact writeHazard_iff_of_regions hbusy a hi rfl (destOf_sagDecode_whole hlen hend)
  case source =>
    have hin : inRegion (sourceOf s .sagDecode) a = true := inRegion_some.2 ⟨hlo, hhi⟩
    rw [writeHazard_of_pending hbusy a hi, hin, Bool.true_or]
  case none =>
    rcases hnone with hi | hi | hi | hi | ⟨m, hi⟩ | ⟨e, he⟩
    case inr.inr.inr.inr.inr => exact writeHazard_of_illegal hbusy a he
    all_goals exact writeHazard_of_no_region hbusy a hi rfl rfl

/-! ### Hazard rule 2 -/

/-- The destination of the pending command, spelled out (70_reset_and_hazards.md R301). -/
theorem readHazard_iff {s : State} {a : Nat} :
    readHazard s a = true ↔ s.status.busy = true ∧ ∃ i r, decode s.latch = .ok i ∧
      destOf s i = some r ∧ r.addr ≤ a ∧ a < r.addr + r.len := by
  simp only [readHazard, inRegion_iff, pendingDest_eq_some]
  constructor
  · rintro ⟨r, ⟨hbusy, i, hi, hdest⟩, hin⟩
    exact ⟨hbusy, i, r, hi, hdest, hin⟩
  · rintro ⟨hbusy, i, r, hi, hdest, hin⟩
    exact ⟨r, ⟨hbusy, i, hi, hdest⟩, hin⟩

theorem hostLoad_of_safe {a : Nat} {s : State} (ha : a < 4294967296) (h : readHazard s a = false) :
    hostLoad a s = .next (learn (.mem a (s.mem.read a)) s) := by
  simp [hostLoad, Config.addrSpace, ha, h]

theorem hostLoad_of_hazard {a : Nat} {s : State} (ha : a < 4294967296) (h : readHazard s a = true) :
    hostLoad a s = .next (learn (.mem a (Config.hazardByte s.draws))
      (noteHazard true { s with draws := s.draws + 1 })) := by
  simp [hostLoad, Config.addrSpace, ha, h]

/-- Settles O57: the load asks `readHazard`, which is being in the pending command's destination. -/
theorem hostLoadFromPendingDestinationIsAHazard :
    Obligations.HostLoadFromPendingDestinationIsAHazard := by
  intro s a ha
  refine ⟨fun hout => ?_, fun i r hbusy hi hdest hlo hhi => ?_⟩
  · have hsafe : readHazard s a = false := by
      rw [← Bool.not_eq_true, readHazard_iff]
      rintro ⟨hbusy, i, r, hi, hdest, hin⟩
      rcases hout with hidle | hnone
      · rw [hbusy] at hidle
        cases hidle
      · exact hnone i r hi hdest hin
    exact hostLoad_of_safe ha hsafe
  · have hhazard := readHazard_iff.2 ⟨hbusy, i, r, hi, hdest, hlo, hhi⟩
    exact ⟨_, hostLoad_of_hazard ha hhazard, by simp, rfl, rfl, rfl, rfl⟩

end Sys2Proof.Machine
end
